-- ==== Sys2Proof/Word.lean ====
section
/-!
DEFINITION. The engine's widths (spec/00_scope.md R5, R6, R7): a word is 32 bits and unsigned, a byte 8 bits, a command
word 16 bits, a message block 64 bytes, the chaining state 8 words. No value is signed. `add32` of R8 and R100 is `+` on
`Word`: addition modulo 2^32, the carry out of bit 31 kept nowhere.
-/

namespace Sys2Proof

/-- A word: an unsigned 32-bit integer (R5, R7). -/
abbrev Word := BitVec 32

/-- A byte: an unsigned 8-bit integer (R7). -/
abbrev Byte := BitVec 8

/-- A command word as the host presents it on `cmd_word` (R6, R70). -/
abbrev CmdWord := BitVec 16

/-- A message block: 64 bytes, 512 bits (R5). -/
abbrev Block := Vector Byte 64

/-- A chaining state: 8 words, 256 bits (R5, R21). -/
abbrev Chain := Vector Word 8

end Sys2Proof
end

