-- ==== Sys2Proof/Syntax.lean ====
section
/-!
DEFINITION. The commands (one constructor per row of spec/opcode_table.json; spec/30_encoding.md R72), and what the host's
assembler reads: the pseudo-commands of R80 and the lines of R81.
-/

namespace Sys2Proof

/-- A command of the engine (R72). UPDATE carries its message byte, all 256 values legal; the operand of every other command
carries no information (R73) and is no part of it. -/
inductive Instr where
  /-- RESET, `0x0100`: restore the initial state (R183). -/
  | reset
  /-- UPDATE b, `0x0200 | b`: append one message byte (R184). -/
  | update (b : Byte)
  /-- FINAL, `0x0300`: pad, finalize and return the digest (R185). -/
  | final
  /-- READ_DIGEST, `0x0400`: read the digest again (R188). -/
  | readDigest
  /-- READ_STATUS, `0x0500`: read the status word (R189). -/
  | readStatus
  /-- READ_COUNT, `0x0600`: read the message length counter (R190). -/
  | readCount
  deriving DecidableEq, Repr

/-- A pseudo-command: expanded by the host before issue, never seen by the engine (R80). -/
inductive Pseudo where
  /-- `NEW`. -/
  | new
  /-- `UPDATE_BYTES m`. -/
  | updateBytes (m : List Byte)
  /-- `DIGEST_MSG m`. -/
  | digestMsg (m : List Byte)
  deriving DecidableEq, Repr

/-- `<byte>` of R81, as written: hexadecimal, decimal or a character literal. -/
inductive ByteLit where
  /-- `0x00`..`0xFF`. -/
  | hex (n : Nat)
  /-- `0`..`255`. -/
  | dec (n : Nat)
  /-- `'c'`, meaning its ASCII code. -/
  | chr (c : Char)
  deriving DecidableEq, Repr

/-- `<bytes>` of R81, as written: a quoted ASCII string or a hex string. -/
inductive BytesLit where
  /-- `"abc"`. -/
  | ascii (cs : List Char)
  /-- `x"616263"`: the hex digits in order, two to a byte, the more significant first. -/
  | hex (digits : List Nat)
  deriving DecidableEq, Repr

/-- One line of assembler (R81). -/
inductive AsmLine where
  /-- `RESET` -/
  | reset
  /-- `UPDATE <byte>` -/
  | update (b : ByteLit)
  /-- `FINAL` -/
  | final
  /-- `READ_DIGEST` -/
  | readDigest
  /-- `READ_STATUS` -/
  | readStatus
  /-- `READ_COUNT` -/
  | readCount
  /-- `NEW` -/
  | new
  /-- `UPDATE_BYTES <bytes>` -/
  | updateBytes (m : BytesLit)
  /-- `DIGEST_MSG <bytes>` -/
  | digestMsg (m : BytesLit)
  deriving DecidableEq, Repr

end Sys2Proof
end

