-- ==== Sys2Proof/WellFormed.lean ====
section
/-!
DEFINITION. Which terms of Syntax stand for something (spec/30_encoding.md R73, R81). The operand type of `Instr` already
holds exactly the legal operands; the checks are those of the assembler's literals.
-/

namespace Sys2Proof

/-- R73: "all 256 values legal" for UPDATE, and no other command has an operand. -/
def Instr.wellFormed : Instr → Bool
  | .reset => true
  | .update _ => true
  | .final => true
  | .readDigest => true
  | .readStatus => true
  | .readCount => true

/-- R81: a hexadecimal `0x00`..`0xFF`, a decimal 0..255, or a character with an ASCII code (0..127). -/
def ByteLit.wellFormed : ByteLit → Bool
  | .hex n => n ≤ 255
  | .dec n => n ≤ 255
  | .chr c => c.toNat < 128

/-- R81: a quoted ASCII string, or a hex string of whole bytes. -/
def BytesLit.wellFormed : BytesLit → Bool
  | .ascii cs => cs.all fun c => c.toNat < 128
  | .hex ds => ds.length % 2 == 0 && ds.all fun d => d < 16

/-- A line of assembler is well-formed when its literal is (R81). -/
def AsmLine.wellFormed : AsmLine → Bool
  | .reset => true
  | .update b => b.wellFormed
  | .final => true
  | .readDigest => true
  | .readStatus => true
  | .readCount => true
  | .new => true
  | .updateBytes m => m.wellFormed
  | .digestMsg m => m.wellFormed

end Sys2Proof
end

