-- ==== Sys2Proof/Decode.lean ====
section
/-!
DEFINITION. The command decoder, total on all 2^16 words (spec/30_encoding.md R71, R72, R74, R75), and the encoder (R81:
"The assembled word of `UPDATE b` is `0x0200 | b`; of every other command its OPC followed by 0x00").
-/

namespace Sys2Proof

/-- Why a command word is illegal (R74). The engine answers both with the one response ILLEGAL_COMMAND (R233). -/
inductive DecodeError where
  /-- OPC is 0x00 or in 0x07..0xFF. -/
  | unassignedOpcode
  /-- OPC is 0x01, 0x03, 0x04, 0x05 or 0x06 and OPD is not 0x00. -/
  | nonzeroOperand
  deriving DecidableEq, Repr

/-- OPC, bits 15:8 (R71). -/
def opcField (w : CmdWord) : Byte := w.extractLsb' 8 8

/-- OPD, bits 7:0 (R71). -/
def opdField (w : CmdWord) : Byte := w.extractLsb' 0 8

/-- A command whose operand must be 0x00 (R73, R74). -/
def withZeroOperand (opd : Byte) (i : Instr) : Except DecodeError Instr :=
  if opd = 0x00#8 then .ok i else .error .nonzeroOperand

/-- The decoder of R75 over the opcode map of R72. -/
def decode (w : CmdWord) : Except DecodeError Instr :=
  if opcField w = 0x02#8 then .ok (.update (opdField w))
  else if opcField w = 0x01#8 then withZeroOperand (opdField w) .reset
  else if opcField w = 0x03#8 then withZeroOperand (opdField w) .final
  else if opcField w = 0x04#8 then withZeroOperand (opdField w) .readDigest
  else if opcField w = 0x05#8 then withZeroOperand (opdField w) .readStatus
  else if opcField w = 0x06#8 then withZeroOperand (opdField w) .readCount
  else .error .unassignedOpcode

/-- The word of a table row numbered as spec/opcode_table.json numbers it: every command is one 16-bit word, so a word that
needs more bits is none of the engine's. -/
def decodeTableWord (_nbits w : Nat) : Option Instr :=
  if w < 2 ^ 16 then (decode (BitVec.ofNat 16 w)).toOption else none

/-- The opcode of each command (R72). -/
def Instr.opcode : Instr → Byte
  | .reset => 0x01
  | .update _ => 0x02
  | .final => 0x03
  | .readDigest => 0x04
  | .readStatus => 0x05
  | .readCount => 0x06

/-- The operand field of each command (R72, R73). -/
def Instr.operand : Instr → Byte
  | .reset => 0x00
  | .update b => b
  | .final => 0x00
  | .readDigest => 0x00
  | .readStatus => 0x00
  | .readCount => 0x00

/-- The word of a command: OPC in bits 15:8, OPD in bits 7:0 (R71, R81). -/
def encode (i : Instr) : CmdWord := i.opcode ++ i.operand

/-- The match value of the command's row in the table (R72). -/
def Instr.tableMatch : Instr → CmdWord
  | .reset => 0x0100
  | .update _ => 0x0200
  | .final => 0x0300
  | .readDigest => 0x0400
  | .readStatus => 0x0500
  | .readCount => 0x0600

/-- The mask of the command's row in the table (R72). -/
def Instr.tableMask : Instr → CmdWord
  | .reset => 0xFFFF
  | .update _ => 0xFF00
  | .final => 0xFFFF
  | .readDigest => 0xFFFF
  | .readStatus => 0xFFFF
  | .readCount => 0xFFFF

end Sys2Proof
end

