-- ==== Sys2Proof/Machine/Operands.lean ====
section
/-!
DEFINITION. The word rotator, the endian converter and the length encoder (spec/40_word_primitives.md). The source's contract
violations (R107, R234) are excluded by type: the converters take exactly `4 * m` bytes or `m` words, and the rotator's amount
is presented as `n mod 32` (R102).
-/

namespace Sys2Proof.Machine

/-- The word rotator (R101), its amount masked to 5 bits (R102). -/
def rotl32 (x : Word) (n : Nat) : Word :=
  if n % 32 = 0 then x else (x <<< (n % 32)) ||| (x >>> (32 - n % 32))

/-- One big-endian word: the first byte is the most significant (R104). -/
def wordOfBytes (b₀ b₁ b₂ b₃ : Byte) : Word :=
  (b₀.setWidth 32 <<< 24) ||| (b₁.setWidth 32 <<< 16) ||| (b₂.setWidth 32 <<< 8) ||| b₃.setWidth 32

/-- Byte `k` of a big-endian word: bits `31-8k : 24-8k` (R54, R105). -/
def byteOfWord (w : Word) (k : Nat) : Byte := w.extractLsb' (24 - 8 * k) 8

/-- `bytesToWordsBE` (R104): `4 * m` bytes to `m` words. -/
def bytesToWordsBE {m : Nat} (s : Vector Byte (4 * m)) : Vector Word m :=
  Vector.ofFn fun i : Fin m => wordOfBytes s[4 * i.val] s[4 * i.val + 1] s[4 * i.val + 2] s[4 * i.val + 3]

/-- `wordsToBytesBE` (R105): `m` words to `4 * m` bytes, each word's most significant byte first. -/
def wordsToBytesBE {m : Nat} (w : Vector Word m) : Vector Byte (4 * m) :=
  Vector.ofFn fun i : Fin (4 * m) => byteOfWord (w[i.val / 4]'(by omega)) (i.val % 4)

/-- `be64` (R106): the 8 bytes of a 64-bit length, most significant first. -/
def be64 (L : BitVec 64) : Vector Byte 8 :=
  Vector.ofFn fun k : Fin 8 => L.extractLsb' (56 - 8 * k.val) 8

end Sys2Proof.Machine
end

