-- ==== Sys2Proof/Machine/Constants.lean ====
section
/-!
DEFINITION. The initial chaining value, the round-function selector, the round constants and their ROM, the boolean round
functions and the permutations (spec/41_constants_round_functions.md). A round index is a `Fin 64`: none outside 0..63 can be
presented (R121).
-/

namespace Sys2Proof.Machine

/-- The initial chaining value (R120). -/
def IV : Chain :=
  #v[0x7380166F, 0x4914B2B9, 0x172442D7, 0xDA8A0600, 0xA96F30BC, 0x163138AA, 0xE38DEE4D, 0xB0FB0E4E]

/-- The selector (R121): `sel(j) = (j >= 16)`. -/
def sel (j : Fin 64) : Bool := 16 ≤ j.val

/-- The round constant (R122). -/
def T (j : Fin 64) : Word := if sel j then 0x7A879D8A else 0x79CC4519

/-- The constant ROM (R123): the round constant rotated by `j mod 32`. -/
def ROM (j : Fin 64) : Word := rotl32 (T j) (j.val % 32)

/-- The round function on A, B, C (R124): parity, then majority. -/
def FF (j : Fin 64) (X Y Z : Word) : Word :=
  if sel j then (X &&& Y) ||| (X &&& Z) ||| (Y &&& Z) else X ^^^ Y ^^^ Z

/-- The round function on E, F, G (R125): parity, then choice. -/
def GG (j : Fin 64) (X Y Z : Word) : Word :=
  if sel j then (X &&& Y) ||| (~~~X &&& Z) else X ^^^ Y ^^^ Z

/-- The permutation of the compression round (R126). -/
def P0 (X : Word) : Word := X ^^^ rotl32 X 9 ^^^ rotl32 X 17

/-- The permutation of the message expansion (R127). -/
def P1 (X : Word) : Word := X ^^^ rotl32 X 15 ^^^ rotl32 X 23

end Sys2Proof.Machine
end

