-- ==== Sys2Proof/Machine/State.lean ====
section
/-!
DEFINITION. The machine's state (spec/10_state.md R20 to R38), its two ports (spec/30_encoding.md R70, R76, R78), why a step
can stop, and the state after power-on reset (R38, R260).
-/

namespace Sys2Proof.Machine

/-- The block buffer's storage (R22, R50): the bytes written since power-on, addresses strictly rising and below 64. A byte
that is not listed holds "no value" (R27; log 3). -/
abbrev Memory := List Host.Cell

/-- The reason code's name of a usage error (R78, R231). -/
inductive UsageReason where
  /-- 0x01: UPDATE while FIN = 1. -/
  | updateAfterFinal
  /-- 0x02: FINAL while FIN = 1. -/
  | finalAfterFinal
  /-- 0x03: READ_DIGEST while FIN = 0. -/
  | notFinalized
  /-- 0x04: FINAL while FIN = 0 and COUNT >= 2^61. -/
  | lengthLimit
  /-- 0x05: UPDATE while FIN = 0 and COUNT = 2^64-1. -/
  | countSaturated
  deriving DecidableEq, Repr

/-- The response of one command (R76): its kind, with the data the kind carries (R77). -/
inductive Response where
  /-- Accepted RESET, accepted UPDATE. -/
  | ack
  /-- Accepted FINAL, accepted READ_DIGEST: the 32 digest bytes, byte 0 first. -/
  | digest (d : Vector Byte 32)
  /-- READ_STATUS: the status word of R36. -/
  | status (w : Word)
  /-- READ_COUNT: the counter view of R37. -/
  | count (n : BitVec 64)
  /-- A command rejected for the engine's state (R231). -/
  | usageError (r : UsageReason)
  /-- An illegal command word (R233). -/
  | illegalCommand
  deriving DecidableEq, Repr

/-- What the host does at the ports in one slot (R70, R260; log 1). -/
inductive HostEvent where
  /-- `cmd_valid` with `cmd_word = w`. -/
  | command (w : CmdWord)
  /-- `rsp_ready`: the host takes the response. -/
  | take
  /-- `rst` asserted. -/
  | rst
  deriving DecidableEq, Repr

/-- The machine. `V`, `BUF`, `OFFSET`, `COUNT` and `FIN` are the architectural state, exactly five items (R20); `rsp` and
`port` are the two ports of R70. -/
structure State where
  /-- The chaining state V[0..7] (R21). -/
  V : Chain
  /-- The block buffer BUF[0..63] (R22). -/
  BUF : Memory
  /-- The fill offset (R23), 6 bits. -/
  OFFSET : BitVec 6
  /-- The message length counter (R24), 64 bits. -/
  COUNT : BitVec 64
  /-- The finalization flag (R25): false is `Accepting`, true is `Finalized`. -/
  FIN : Bool
  /-- The response port: `some r` is `rsp_valid` with the response of the last accepted command, not yet taken (R70). -/
  rsp : Option Response
  /-- The model's own field: what the host does next at the ports, oldest first (log 1). -/
  port : List HostEvent
  deriving DecidableEq, Repr

/-- Why the machine stops with a fault. -/
inductive Fault where
  /-- A contract violation of the source (R234): a rotation amount, converter length or round index outside its domain. Each is
  excluded by width, so no meaning raises it and no command reaches it (log 9). Safe. -/
  | contractViolation
  deriving DecidableEq, Repr

/-- Why an instruction has no meaning. -/
inductive Refusal where
  /-- Raised only in exec's arm of an instruction that has no meaning yet; no arm is one. Safe. -/
  | notModelled (mnemonic : String)
  deriving DecidableEq, Repr

/-- The answer of a meaning or a step. -/
abbrev Answer := Host.Outcome State Fault Refusal

/-- The machine right after power-on reset (R38, R260): V = IV, OFFSET = 0, COUNT = 0, FIN = 0, BUF unspecified (nothing listed),
no response pending (log 11), and a host that does nothing (log 1). -/
def State.reset : State :=
  { V := IV, BUF := [], OFFSET := 0, COUNT := 0, FIN := false, rsp := none, port := [] }

end Sys2Proof.Machine
end

