-- ==== Sys2Proof/Machine/Flags.lean ====
section
/-!
DEFINITION. FIN, "the only flag of the engine" (spec/10_state.md R25): the status word that shows it (R36) and the checks that
read it and the length limits, in the order of priority of spec/60_exceptions.md R235.
-/

namespace Sys2Proof.Machine

/-- The status word (R36, R189): bit 0 FIN, bits 13:8 OFFSET, every other bit 0. -/
def statusWord (s : State) : Word :=
  (s.OFFSET.setWidth 32 <<< 8) ||| (BitVec.ofBool s.FIN).setWidth 32

/-- The checks of UPDATE (R184): the state check, then COUNT = 2^64 - 1. -/
def updateCheck (s : State) : Option UsageReason :=
  if s.FIN then some .updateAfterFinal
  else if s.COUNT.toNat = 2 ^ 64 - 1 then some .countSaturated
  else none

/-- The checks of FINAL (R185): the state check, then COUNT >= 2^61. -/
def finalCheck (s : State) : Option UsageReason :=
  if s.FIN then some .finalAfterFinal
  else if 2 ^ 61 ≤ s.COUNT.toNat then some .lengthLimit
  else none

/-- The check of READ_DIGEST (R188): FIN = 0. -/
def readDigestCheck (s : State) : Option UsageReason :=
  if s.FIN then none else some .notFinalized

end Sys2Proof.Machine
end

