-- ==== Sys2Proof/Config.lean ====
section
/-!
DEFINITION. What the spec leaves open, as opaque constants: no proof can see a value of any of them, so a theorem about the
model holds whatever they are.
-/

namespace Sys2Proof

/-- FREE VALUE. What byte `i` of BUF holds when nothing has written it since power-on: "unspecified, unobservable"
(R27, R38, 93_implementation_defined.md K1.9 `any value`; log 3). -/
opaque Config.bufPowerOn : Nat → Byte

/-- The parameter `LAT` (R6, R267, K1.11), cycles a command takes. The model has no time and nothing reads it (log 10). -/
opaque Config.LAT : Nat

/-- The parameter `ROUNDS_PER_CYCLE` (D20, K1.12). Only CF's result is observable and nothing reads it (log 10). -/
opaque Config.ROUNDS_PER_CYCLE : Nat

end Sys2Proof
end

