-- ==== Sys2Proof/Machine/Scheduler.lean ====
section
/-!
DEFINITION. The message scheduler (spec/42_message_scheduler.md): a pure function of one 64-byte block.
-/

namespace Sys2Proof.Machine

/-- The expanded schedule of one block: `W[0..67]` and `W'[0..63]` (R32, R140). -/
structure Schedule where
  W  : Vector Word 68
  W' : Vector Word 64
  deriving DecidableEq, Repr

/-- The message words `W[0..15]` (R141). -/
def messageWords (block : Block) : Vector Word 16 := bytesToWordsBE (m := 16) block

/-- The word after `W[0..15+n]`: the right side of the recurrence at `j = 16 + n` (R142), where `W[j-16]` is `W[n]`, `W[j-13]`
is `W[n+3]`, `W[j-9]` is `W[n+7]`, `W[j-6]` is `W[n+10]` and `W[j-3]` is `W[n+13]`. -/
def nextWord {n : Nat} (W : Vector Word (16 + n)) : Word :=
  P1 (W[n] ^^^ W[n + 7] ^^^ rotl32 W[n + 13] 15) ^^^ rotl32 W[n + 3] 7 ^^^ W[n + 10]

/-- `W[0..15+n]`: the recurrence run for `j = 16` to `15 + n` in increasing order (R142, R144). -/
def expandWords (M : Vector Word 16) : (n : Nat) → Vector Word (16 + n)
  | 0 => M
  | n + 1 => (expandWords M n).push (nextWord (expandWords M n))

/-- The derived words `W'[0..63]` (R143). -/
def derivedWords (W : Vector Word 68) : Vector Word 64 :=
  Vector.ofFn fun j : Fin 64 => W[j.val] ^^^ W[j.val + 4]

/-- The message expansion (R140). -/
def Expand (block : Block) : Schedule :=
  { W := expandWords (messageWords block) 52
    W' := derivedWords (expandWords (messageWords block) 52) }

end Sys2Proof.Machine
end

