-- ==== Sys2Proof/Machine/Compression.lean ====
section
/-!
DEFINITION. The 64-round compression pipeline (spec/43_compression.md): a pure function of the chaining state and one block.
The working registers and round temporaries are values inside one compression and no state of the machine (R35, log 5).
-/

namespace Sys2Proof.Machine

/-- The working registers A..H (R30). -/
structure Working where
  A : Word
  B : Word
  C : Word
  D : Word
  E : Word
  F : Word
  G : Word
  H : Word
  deriving DecidableEq, Repr

/-- Load the working registers from the chaining state (R161). -/
def loadWorking (V : Chain) : Working :=
  { A := V[0], B := V[1], C := V[2], D := V[3], E := V[4], F := V[5], G := V[6], H := V[7] }

/-- The working registers in the order of the chaining state (R165). -/
def Working.toChain (r : Working) : Chain := #v[r.A, r.B, r.C, r.D, r.E, r.F, r.G, r.H]

/-- `SS1` of round `j` (R162). -/
def roundSS1 (j : Fin 64) (r : Working) : Word := rotl32 (rotl32 r.A 12 + r.E + ROM j) 7

/-- `SS2` of round `j` (R162). -/
def roundSS2 (j : Fin 64) (r : Working) : Word := roundSS1 j r ^^^ rotl32 r.A 12

/-- `TT1` of round `j`, which uses `W'[j]` (R162). -/
def roundTT1 (j : Fin 64) (w' : Word) (r : Working) : Word := FF j r.A r.B r.C + r.D + roundSS2 j r + w'

/-- `TT2` of round `j`, which uses `W[j]` (R162). -/
def roundTT2 (j : Fin 64) (w : Word) (r : Working) : Word := GG j r.E r.F r.G + r.H + roundSS1 j r + w

/-- One round (R162) with its rotating state update, one parallel assignment from the pre-round values (R163). -/
def compressionRound (sch : Schedule) (j : Fin 64) (r : Working) : Working :=
  { A := roundTT1 j sch.W'[j.val] r
    B := r.A
    C := rotl32 r.B 9
    D := r.C
    E := P0 (roundTT2 j sch.W[j.val] r)
    F := r.E
    G := rotl32 r.F 19
    H := r.G }

/-- The working registers after rounds `0..n-1`, run in order (R164). -/
def rounds (sch : Schedule) (r : Working) : (n : Nat) → n ≤ 64 → Working
  | 0, _ => r
  | n + 1, h => compressionRound sch ⟨n, h⟩ (rounds sch r n (Nat.le_of_succ_le h))

/-- The feed-forward (R165): xor, word by word. -/
def feedForward (V R : Chain) : Chain := Vector.ofFn fun i : Fin 8 => V[i.val] ^^^ R[i.val]

/-- The compression function (R160). -/
def CF (V : Chain) (block : Block) : Chain :=
  feedForward V (rounds (Expand block) (loadWorking V) 64 (Nat.le_refl 64)).toChain

end Sys2Proof.Machine
end

