-- ==== Sys2Proof/Machine/Ops.lean ====
section
/-!
DEFINITION. The shared operations: the block buffer (spec/20_memory.md R51), the responses, errors included
(spec/60_exceptions.md R231 to R233), absorb and the block boundary (spec/44_streaming_commands.md R181, R182), the padding
(R185, R186) and power-on reset (spec/70_reset_and_hazards.md R260). The engine has no trap: an error is a response and nothing
else (R238), so `usageError` and `illegalCommand` stand where another machine takes an exception, and there is no return from
one.
-/

namespace Sys2Proof.Machine

/-- One byte of the block buffer: `none` where nothing has been written since power-on (R27). -/
def Memory.read : Memory → Nat → Option Byte
  | [], _ => none
  | (a, b) :: m, i => if a = i then some b else Memory.read m i

/-- `MemWrite(i, 1, b)` (R9, R51): one byte, the list kept strictly rising. -/
def Memory.write : Memory → Nat → Byte → Memory
  | [], i, b => [(i, b)]
  | (a, c) :: m, i, b =>
    if i < a then (i, b) :: (a, c) :: m
    else if i = a then (i, b) :: m
    else (a, c) :: Memory.write m i b

/-- Addresses strictly rising from `lo` on, and below 64. -/
def Memory.risingFrom : Nat → Memory → Bool
  | _, [] => true
  | lo, (a, _) :: m => decide (lo ≤ a) && decide (a < 64) && Memory.risingFrom (a + 1) m

/-- The canonical form: addresses strictly rising and inside BUF[0..63]. An unlisted byte reads as no value, and a listed one as
a value, so no entry says what an unlisted byte says. -/
def Memory.wf (m : Memory) : Bool := Memory.risingFrom 0 m

/-- The byte BUF[i] holds: what was written, or the free value of power-on (R38, K1.9; log 3). -/
def bufByte (m : Memory) (i : Nat) : Byte := (Memory.read m i).getD (Config.bufPowerOn i)

/-- `MemRead(0, 64)` (R9, R51): the whole block. -/
def memReadBlock (m : Memory) : Block := Vector.ofFn fun i : Fin 64 => bufByte m i.val

/-- `respond K(data)` (R9): the one response of the command. -/
def respond (r : Response) (s : State) : State := { s with rsp := some r }

/-- `raise UsageError(reason)` (R9, R231): that response, and no state changed (R232). -/
def usageError (r : UsageReason) (s : State) : Answer := .next (respond (.usageError r) s)

/-- `raise IllegalCommand()` (R9, R233): that response, and no state changed (R232). -/
def illegalCommand (s : State) : Answer := .next (respond .illegalCommand s)

/-- `block_boundary()` (R182): the one place V changes outside reset. -/
def blockBoundary (s : State) : State := { s with V := CF s.V (memReadBlock s.BUF), OFFSET := 0 }

/-- `absorb(b)` (R181): one byte into the block buffer, compressing when the block is full. -/
def absorb (b : Byte) (s : State) : State :=
  let t := { s with BUF := Memory.write s.BUF s.OFFSET.toNat b }
  if s.OFFSET = 63 then blockBoundary t else { t with OFFSET := s.OFFSET + 1 }

/-- Absorb a byte sequence, first byte first. -/
def absorbAll (bs : List Byte) (s : State) : State := bs.foldl (fun t b => absorb b t) s

/-- The number of 0x00 bytes FINAL absorbs (R185): `k = (55 - OFFSET) mod 64`, as a 6-bit subtraction. -/
def zeroCount (offset : BitVec 6) : Nat := (55#6 - offset).toNat

/-- The bit length (R185): `L = 8 * COUNT`, 64 bits. -/
def bitLength (count : BitVec 64) : BitVec 64 := 8#64 * count

/-- The bytes FINAL absorbs, in order (R185): 0x80, `k` bytes 0x00, the bit length big-endian. -/
def paddingBytes (offset : BitVec 6) (count : BitVec 64) : List Byte :=
  0x80#8 :: (List.replicate (zeroCount offset) 0x00#8 ++ (be64 (bitLength count)).toList)

/-- The digest serialization of FINAL and READ_DIGEST (R54, R105). -/
def digestBytes (V : Chain) : Vector Byte 32 := wordsToBytesBE (m := 8) V

/-- Power-on reset (R38, R260): the state after it, with BUF unspecified and no response; what the host does next stays. -/
def powerOnReset (s : State) : State := { State.reset with port := s.port }

end Sys2Proof.Machine
end

