-- ==== Sys2Proof/Machine/Streaming.lean ====
section
/-!
DEFINITION. The meanings of the six commands (spec/44_streaming_commands.md section 3), each the pseudocode of its rule with the
error checks first.
-/

namespace Sys2Proof.Machine

/-- RESET (R183): BUF is not cleared. -/
def execReset (s : State) : Answer :=
  .next (respond .ack { s with V := IV, OFFSET := 0, COUNT := 0, FIN := false })

/-- UPDATE b (R184). -/
def execUpdate (b : Byte) (s : State) : Answer :=
  match updateCheck s with
  | some r => usageError r s
  | none => .next (respond .ack (absorb b { s with COUNT := s.COUNT + 1 }))

/-- FINAL's accepted path (R185): absorb the padding, then FIN <- 1. -/
def finalize (s : State) : State := { absorbAll (paddingBytes s.OFFSET s.COUNT) s with FIN := true }

/-- FINAL (R185). -/
def execFinal (s : State) : Answer :=
  match finalCheck s with
  | some r => usageError r s
  | none => .next (respond (.digest (digestBytes (finalize s).V)) (finalize s))

/-- READ_DIGEST (R188). -/
def execReadDigest (s : State) : Answer :=
  match readDigestCheck s with
  | some r => usageError r s
  | none => .next (respond (.digest (digestBytes s.V)) s)

/-- READ_STATUS (R189). -/
def execReadStatus (s : State) : Answer := .next (respond (.status (statusWord s)) s)

/-- READ_COUNT (R190). -/
def execReadCount (s : State) : Answer := .next (respond (.count s.COUNT) s)

end Sys2Proof.Machine
end

