-- ==== Sys2Proof/Machine/Dispatch.lean ====
section
/-!
DEFINITION. One arm per command (spec/30_encoding.md R72).
-/

namespace Sys2Proof.Machine

def exec (i : Instr) (s : State) : Host.Outcome State Fault Refusal :=
  match i with
  | .reset => Sys2Proof.Machine.execReset s
  | .update b => Sys2Proof.Machine.execUpdate b s
  | .final => Sys2Proof.Machine.execFinal s
  | .readDigest => Sys2Proof.Machine.execReadDigest s
  | .readStatus => Sys2Proof.Machine.execReadStatus s
  | .readCount => Sys2Proof.Machine.execReadCount s

end Sys2Proof.Machine
end

