-- ==== Sys2Proof/Machine/Response.lean ====
section
/-!
DEFINITION. What stands on the response port for a response: `rsp_kind`, `rsp_data` and the reason codes
(spec/30_encoding.md R76, R77, R78), and the port's handshake signals (R70).
-/

namespace Sys2Proof.Machine

/-- The reason codes (R78). -/
def UsageReason.code : UsageReason → Byte
  | .updateAfterFinal => 0x01
  | .finalAfterFinal => 0x02
  | .notFinalized => 0x03
  | .lengthLimit => 0x04
  | .countSaturated => 0x05

/-- `rsp_kind` (R76). -/
def Response.kind : Response → BitVec 4
  | .ack => 0x0
  | .digest _ => 0x1
  | .status _ => 0x2
  | .count _ => 0x3
  | .usageError _ => 0xE
  | .illegalCommand => 0xF

/-- The digest bytes as one 256-bit value, byte 0 in bits 255:248 (R77). -/
def digestData (d : Vector Byte 32) : BitVec 256 :=
  d.toList.foldl (fun acc b => (acc <<< 8) ||| b.setWidth 256) 0

/-- `rsp_data` (R77): "every bit not listed is 0". -/
def Response.data : Response → BitVec 256
  | .ack => 0
  | .digest d => digestData d
  | .status w => w.setWidth 256
  | .count n => n.setWidth 256
  | .usageError r => r.code.setWidth 256
  | .illegalCommand => 0

/-- `rsp_valid` (R70). -/
def State.rspValid (s : State) : Bool := s.rsp.isSome

/-- `cmd_ready` (R70): low from acceptance until the response is taken. -/
def State.cmdReady (s : State) : Bool := s.rsp.isNone

end Sys2Proof.Machine
end

