-- ==== Sys2Proof/Machine/Port.lean ====
section
/-!
DEFINITION. The command port (spec/30_encoding.md R70, R75; spec/70_reset_and_hazards.md R260, R264): what one slot of host
activity does before any command is executed, and what an accepted word does.
-/

namespace Sys2Proof.Machine

/-- The host's activity in this slot: the state after it, and the command word accepted in it, if one was.
Nothing to do: the engine waits and produces no response (R79).
`rst`: power-on reset; no command is accepted (R260).
`rsp_ready`: a pending response is taken; with none pending nothing happens (R70; log 12).
`cmd_valid`: the word is accepted when `cmd_ready` is high, and otherwise not (R70, R264; log 2). -/
def portActivity (s : State) : State × Option CmdWord :=
  match s.port with
  | [] => (s, none)
  | .rst :: later => (powerOnReset { s with port := later }, none)
  | .take :: later => ({ s with port := later, rsp := none }, none)
  | .command w :: later => ({ s with port := later }, if s.cmdReady then some w else none)

/-- Present `w` as the next thing the host does, on a port that is ready for it. -/
def presentWord (w : CmdWord) (s : State) : State := { s with port := .command w :: s.port, rsp := none }

/-- Decode an accepted word and execute it; an illegal word is answered with ILLEGAL_COMMAND (R74, R233). -/
def runWord (w : CmdWord) (s : State) : Answer :=
  match decode w with
  | .ok i => exec i s
  | .error _ => illegalCommand s

end Sys2Proof.Machine
end

