-- ==== Sys2Proof/Machine/Step.lean ====
section
/-!
DEFINITION. One step: one slot of host activity, and the whole of the command it presents (spec/20_memory.md R59, R61;
spec/30_encoding.md R70, R75; spec/92_eei_decisions.md D2, D18).
-/

namespace Sys2Proof.Machine

/-- One step of the machine. -/
def step (s : State) : Host.Outcome State Fault Refusal :=
  match (portActivity s).2 with
  | none => .next (portActivity s).1
  | some w => runWord w (portActivity s).1

/-- `s` with the word `w` presented next on the command port, so that the very next step accepts and runs it (log 7). -/
def State.withFetchWord (s : State) (_nbits w : Nat) : State := presentWord (BitVec.ofNat 16 w) s

end Sys2Proof.Machine
end

