-- ==== Sys2Proof/Machine/Message.lean ====
section
/-!
DEFINITION. What the host does with commands (spec/30_encoding.md R70, R80) and the digest of a whole message
(spec/44_streaming_commands.md R186, R191; spec/20_memory.md R52), a pure function the streaming engine is compared with.
-/

namespace Sys2Proof

/-- `UPDATE_BYTES m` (R80): one UPDATE per byte, nothing for no byte. -/
def updateCommands (m : List Byte) : List Instr := m.map Instr.update

/-- The expansion of a pseudo-command (R80). -/
def Pseudo.expand : Pseudo → List Instr
  | .new => [.reset]
  | .updateBytes m => updateCommands m
  | .digestMsg m => updateCommands m ++ [.final]

namespace Machine

/-- A sequence of commands in the order issued (R61), whatever their responses: "later ones are issued regardless" (R80). -/
def execAll : List Instr → State → Answer
  | [], s => .next s
  | i :: later, s =>
    match exec i s with
    | .next t => execAll later t
    | .fault r => .fault r
    | .refused r => .refused r

/-- The host's activity for a sequence of commands: present each word and take its response (R70, R264). -/
def hostScript (is : List Instr) : List HostEvent := is.flatMap fun i => [.command (encode i), .take]

/-- The least `k` with `n + 1 + k` congruent to 56 modulo 64 (R186): `k = (55 - (n mod 64)) mod 64`, the remainder taken
non-negative (R8), so 64 is added before a natural subtraction. -/
def padZeros (n : Nat) : Nat := (55 + 64 - n % 64) % 64

/-- `pad(n)` (R186). -/
def pad (n : Nat) : List Byte :=
  0x80#8 :: (List.replicate (padZeros n) 0x00#8 ++ (be64 (BitVec.ofNat 64 (8 * n))).toList)

/-- The padded message `m || pad(n)` (R186). -/
def paddedMessage (m : List Byte) : List Byte := m ++ pad m.length

/-- Block `b` of a byte sequence: its byte `i` is byte `64 * b + i` (R52). A sequence is read only inside its length. -/
def blockAt (bytes : List Byte) (b : Nat) : Block := Vector.ofFn fun i : Fin 64 => bytes.getD (64 * b + i.val) 0

/-- The chaining state after compressing blocks `0..n-1` of a byte sequence in order (R61, R191). -/
def compressBlocks (V : Chain) (bytes : List Byte) : Nat → Chain
  | 0 => V
  | n + 1 => CF (compressBlocks V bytes n) (blockAt bytes n)

/-- The digest of a message (R191): every block of `m || pad(len m)` compressed in order from IV, serialized. -/
def digestOf (m : List Byte) : Vector Byte 32 :=
  digestBytes (compressBlocks IV (paddedMessage m) ((paddedMessage m).length / 64))

end Machine

end Sys2Proof
end

