-- ==== Sys2Proof/Machine/Assembler.lean ====
section
/-!
DEFINITION. The assembler (spec/30_encoding.md R81): one command per line, upper-case mnemonics, `;` starts a comment. It is the
host's; the engine sees the words only.
-/

namespace Sys2Proof

/-- The byte a literal means (R81). -/
def ByteLit.value : ByteLit → Byte
  | .hex n => BitVec.ofNat 8 n
  | .dec n => BitVec.ofNat 8 n
  | .chr c => BitVec.ofNat 8 c.toNat

/-- Hex digits two to a byte, the more significant first. -/
def bytesOfDigits : List Nat → List Byte
  | h :: l :: ds => BitVec.ofNat 8 (16 * h + l) :: bytesOfDigits ds
  | _ => []

/-- The bytes a literal means (R81). -/
def BytesLit.value : BytesLit → List Byte
  | .ascii cs => cs.map fun c => BitVec.ofNat 8 c.toNat
  | .hex ds => bytesOfDigits ds

/-- The commands of a line, pseudo-commands expanded (R80, R81). -/
def AsmLine.commands : AsmLine → List Instr
  | .reset => [.reset]
  | .update b => [.update b.value]
  | .final => [.final]
  | .readDigest => [.readDigest]
  | .readStatus => [.readStatus]
  | .readCount => [.readCount]
  | .new => Pseudo.expand .new
  | .updateBytes m => Pseudo.expand (.updateBytes m.value)
  | .digestMsg m => Pseudo.expand (.digestMsg m.value)

/-- The words the assembler gives a line, `none` for an ill-formed one (R81). -/
def assemble (l : AsmLine) : Option (List CmdWord) :=
  if l.wellFormed then some (l.commands.map encode) else none

/-- A hexadecimal digit, either case (log 17). -/
def hexDigit (c : Char) : Option Nat :=
  if '0' ≤ c ∧ c ≤ '9' then some (c.toNat - '0'.toNat)
  else if 'a' ≤ c ∧ c ≤ 'f' then some (c.toNat - 'a'.toNat + 10)
  else if 'A' ≤ c ∧ c ≤ 'F' then some (c.toNat - 'A'.toNat + 10)
  else none

/-- A decimal digit. -/
def decDigit (c : Char) : Option Nat :=
  if '0' ≤ c ∧ c ≤ '9' then some (c.toNat - '0'.toNat) else none

/-- A number in the given base, at least one digit; leading zeros are accepted and change nothing (log 17). -/
def parseNumber (base : Nat) (digit : Char → Option Nat) (cs : List Char) : Option Nat :=
  if cs.isEmpty then none
  else cs.foldl (fun acc c => acc.bind fun n => (digit c).map fun d => base * n + d) (some 0)

/-- `<byte>` (R81); a number that does not start with `0x` is decimal, leading zeros or not (log 17). -/
def parseByte : List Char → Option ByteLit
  | ['\'', c, '\''] => some (.chr c)
  | '0' :: 'x' :: ds => (parseNumber 16 hexDigit ds).map ByteLit.hex
  | ds => (parseNumber 10 decDigit ds).map ByteLit.dec

/-- The characters between a string's opening quote and its closing one, which ends the operand. -/
def quotedBody : List Char → Option (List Char)
  | [] => none
  | ['"'] => some []
  | c :: cs => if c = '"' then none else (quotedBody cs).map fun body => c :: body

/-- `<bytes>` (R81). -/
def parseBytes : List Char → Option BytesLit
  | '"' :: cs => (quotedBody cs).map BytesLit.ascii
  | 'x' :: '"' :: cs => (quotedBody cs).bind fun body => (body.mapM hexDigit).map BytesLit.hex
  | _ => none

/-- The line without its comment: `;` starts one, unless it stands inside a quoted string or is the character of a character
literal (log 17). The flag says whether a quoted string is open. -/
def stripComment : Bool → List Char → List Char
  | _, [] => []
  | false, '\'' :: c :: '\'' :: cs => '\'' :: c :: '\'' :: stripComment false cs
  | q, c :: cs =>
    if c = ';' ∧ q = false then []
    else c :: stripComment (if c = '"' then !q else q) cs

/-- White space between the parts of a line. -/
def isBlank (c : Char) : Bool := c == ' ' || c == '\t'

/-- A line's text with no white space before or after it. -/
def trimBlanks (cs : List Char) : List Char := ((cs.dropWhile isBlank).reverse.dropWhile isBlank).reverse

/-- A mnemonic and its operand text as a line of assembler; every mnemonic that takes no operand takes none (R81). -/
def parseCommand (mnemonic : List Char) (operand : List Char) : Option AsmLine :=
  if mnemonic = "UPDATE".toList then (parseByte operand).map AsmLine.update
  else if mnemonic = "UPDATE_BYTES".toList then (parseBytes operand).map AsmLine.updateBytes
  else if mnemonic = "DIGEST_MSG".toList then (parseBytes operand).map AsmLine.digestMsg
  else if operand ≠ [] then none
  else if mnemonic = "RESET".toList then some .reset
  else if mnemonic = "FINAL".toList then some .final
  else if mnemonic = "READ_DIGEST".toList then some .readDigest
  else if mnemonic = "READ_STATUS".toList then some .readStatus
  else if mnemonic = "READ_COUNT".toList then some .readCount
  else if mnemonic = "NEW".toList then some .new
  else none

/-- One line of text (R81): the words it assembles to, none of them for an empty line or a comment, and no answer where it is not
assembler. -/
def assembleText (line : List Char) : Option (List CmdWord) :=
  let text := trimBlanks (stripComment false line)
  if text = [] then some []
  else
    (parseCommand (text.takeWhile fun c => !isBlank c) (trimBlanks (text.dropWhile fun c => !isBlank c))).bind assemble

end Sys2Proof
end

