-- ==== Sys2Proof/Safety.lean ====
section
/-!
DEFINITION. What a safe run of the engine keeps (spec/10_state.md R26, R27), which states the host cannot tell apart
(R27, R261), and what one command leaves alone.
-/

namespace Sys2Proof.Machine

/-- The state invariant between commands. -/
structure Inv (s : State) : Prop where
  /-- The block buffer's list is in its canonical form. -/
  canonical : Memory.wf s.BUF = true
  /-- R26: "if FIN = 0 then OFFSET = COUNT mod 64". -/
  accepting : s.FIN = false → s.OFFSET.toNat = s.COUNT.toNat % 64
  /-- R26: "if FIN = 1 then OFFSET = 0". -/
  finalized : s.FIN = true → s.OFFSET = 0
  /-- R23: the bytes of the current block below OFFSET have been written. -/
  filled : ∀ i, i < s.OFFSET.toNat → (Memory.read s.BUF i).isSome = true
  /-- R185: FINAL accepts at most 2^61 - 1 bytes. -/
  messageLength : s.FIN = true → s.COUNT.toNat < 2 ^ 61

/-- Two states that differ at most in the bytes `BUF[OFFSET..63]` (R27). -/
structure SameButUnwritten (s t : State) : Prop where
  V : s.V = t.V
  OFFSET : s.OFFSET = t.OFFSET
  COUNT : s.COUNT = t.COUNT
  FIN : s.FIN = t.FIN
  rsp : s.rsp = t.rsp
  port : s.port = t.port
  BUF : ∀ i, i < s.OFFSET.toNat → bufByte s.BUF i = bufByte t.BUF i

/-- The illegal command words (R74), by the numbers of their two fields (R71): OPC is 0x00 or in 0x07..0xFF, or OPC is 0x01, 0x03,
0x04, 0x05 or 0x06 and OPD is not 0x00. -/
abbrev IllegalWord (w : CmdWord) : Prop :=
  w.toNat / 256 = 0 ∨ 7 ≤ w.toNat / 256 ∨ (w.toNat / 256 ≠ 2 ∧ w.toNat % 256 ≠ 0)

/-- The length bytes of the padding of a message of `n` bytes (R106, R186), `n < 2^61`. -/
def lengthBytes (n : Nat) : Vector Byte 8 := be64 (BitVec.ofNat 64 (8 * n))

/-- The block FINAL compresses when OFFSET <= 55 (R187): the message's tail, 0x80, zeros, and the length in bytes 56..63. -/
def paddedBlock (s : State) : Block :=
  Vector.ofFn fun i : Fin 64 =>
    if i.val < s.OFFSET.toNat then bufByte s.BUF i.val
    else if i.val = s.OFFSET.toNat then 0x80
    else if i.val < 56 then 0x00
    else (lengthBytes s.COUNT.toNat)[i.val - 56]

/-- The first block FINAL compresses when OFFSET >= 56 (R187): the message's tail, 0x80, and zeros to the end of the block. -/
def spilledBlock (s : State) : Block :=
  Vector.ofFn fun i : Fin 64 =>
    if i.val < s.OFFSET.toNat then bufByte s.BUF i.val
    else if i.val = s.OFFSET.toNat then 0x80
    else 0x00

/-- The second block FINAL compresses when OFFSET >= 56 (R187): zeros in bytes 0..55, the length in bytes 56..63. -/
def lengthBlock (s : State) : Block :=
  Vector.ofFn fun i : Fin 64 => if i.val < 56 then 0x00 else (lengthBytes s.COUNT.toNat)[i.val - 56]

/-- The three commands that only read (R60). -/
def readsOnly : Instr → Bool
  | .reset => false
  | .update _ => false
  | .final => false
  | .readDigest => true
  | .readStatus => true
  | .readCount => true

end Sys2Proof.Machine
end

