-- ==== Sys2Proof/Certificates/Slice0/Obligations.lean ====
section
/-!
DEFINITION. The statements for the provers. Each docstring names the rule of spec/ it formalises, or, where the spec marks the
sentence as its own inference, that sentence; a clause that rests on a choice of the model names its log entry.
-/

open Sys2Proof Sys2Proof.Machine

/-! ## Commands and responses (spec/30_encoding.md) -/

/-- R71, R75 and R81 read together: the decoder gives back every command from the word the assembler gives it, the message byte at
every one of its 256 values. -/
def Obligations.DecodeOfEncode : Prop :=
  ∀ i : Instr, i.wellFormed = true → decode (encode i) = .ok i

/-- R75 ("otherwise it is illegal"): a word that decodes to a command is the one word of that command, so no bit of a word is
ignored. -/
def Obligations.DecodedWordIsItsEncoding : Prop :=
  ∀ (w : CmdWord) (i : Instr), decode w = .ok i → w = encode i

/-- R72: the opcode map as match/mask pairs over the 16-bit word, every pair naming its command, and no two of them overlapping. -/
def Obligations.LegalWordsAreTheTableRows : Prop :=
  ∀ w : CmdWord,
    (w &&& 0xFFFF = 0x0100 ↔ decode w = .ok .reset) ∧
    (w &&& 0xFF00 = 0x0200 ↔ ∃ b, decode w = .ok (.update b)) ∧
    (w &&& 0xFF00 = 0x0200 → decode w = .ok (.update (w.extractLsb' 0 8))) ∧
    (w &&& 0xFFFF = 0x0300 ↔ decode w = .ok .final) ∧
    (w &&& 0xFFFF = 0x0400 ↔ decode w = .ok .readDigest) ∧
    (w &&& 0xFFFF = 0x0500 ↔ decode w = .ok .readStatus) ∧
    (w &&& 0xFFFF = 0x0600 ↔ decode w = .ok .readCount) ∧
    ∀ i j : Instr, w &&& i.tableMask = i.tableMatch → w &&& j.tableMask = j.tableMatch → i.tableMatch = j.tableMatch

/-- The decoder refuses exactly the words that 30_encoding.md section 2 calls illegal ("Illegal encodings", "The decoder is total
on all 2^16 words"). -/
def Obligations.DecoderRefusesExactlyIllegalWords : Prop :=
  ∀ w : CmdWord, IllegalWord w ↔ ∃ e, decode w = .error e

/-- Words written out from the encodings of 30_encoding.md section 2 and the assembler's words of 95_test_vectors.md sections 5
and 6 decode to the commands they stand for, and the illegal words named there to none. -/
def Obligations.WrittenOutWordsDecode : Prop :=
  decode 0x0100 = .ok .reset ∧ decode 0x0261 = .ok (.update 0x61) ∧ decode 0x0200 = .ok (.update 0x00) ∧
  decode 0x02FF = .ok (.update 0xFF) ∧ decode 0x0300 = .ok .final ∧ decode 0x0400 = .ok .readDigest ∧
  decode 0x0500 = .ok .readStatus ∧ decode 0x0600 = .ok .readCount ∧
  decode 0x0000 = .error .unassignedOpcode ∧ decode 0x0700 = .error .unassignedOpcode ∧
  decode 0xFF00 = .error .unassignedOpcode ∧ decode 0x0301 = .error .nonzeroOperand ∧
  decode 0x0105 = .error .nonzeroOperand

/-- R76: the kind of every response, the response kind each command produces when it is accepted and when it is rejected for the
engine's state, the kind an illegal word gets, and that no other kind is produced. -/
def Obligations.ResponseKindsAndTheirCommands : Prop :=
  (Response.ack.kind = 0x0 ∧ (∀ d, (Response.digest d).kind = 0x1) ∧ (∀ w, (Response.status w).kind = 0x2) ∧
    (∀ n, (Response.count n).kind = 0x3) ∧ (∀ u, (Response.usageError u).kind = 0xE) ∧
    Response.illegalCommand.kind = 0xF) ∧
  (∀ s : State,
    (∃ t, exec .reset s = .next t ∧ t.rsp = some .ack) ∧
    (∀ b, ∃ t, exec (.update b) s = .next t ∧
      if s.FIN = false ∧ s.COUNT.toNat < 2 ^ 64 - 1 then t.rsp = some .ack else ∃ u, t.rsp = some (.usageError u)) ∧
    (∃ t, exec .final s = .next t ∧
      if s.FIN = false ∧ s.COUNT.toNat < 2 ^ 61 then ∃ d, t.rsp = some (.digest d) else ∃ u, t.rsp = some (.usageError u)) ∧
    (∃ t, exec .readDigest s = .next t ∧
      if s.FIN = true then ∃ d, t.rsp = some (.digest d) else ∃ u, t.rsp = some (.usageError u)) ∧
    (∃ t w, exec .readStatus s = .next t ∧ t.rsp = some (.status w)) ∧
    (∃ t n, exec .readCount s = .next t ∧ t.rsp = some (.count n)) ∧
    ∀ w : CmdWord, IllegalWord w → ∃ t, runWord w s = .next t ∧ t.rsp = some .illegalCommand) ∧
  (∀ r : Response, r.kind.toNat < 0x4 ∨ 0xD < r.kind.toNat)

/-- R77: the response data of every kind, the digest bytes and the chaining words in their places, every bit not listed 0. -/
def Obligations.ResponseDataLayout : Prop :=
  Response.ack.data = 0 ∧ Response.illegalCommand.data = 0 ∧
  (∀ (d : Vector Byte 32) (n : Nat) (_ : n < 32), (Response.digest d).data.extractLsb' (248 - 8 * n) 8 = d[n]) ∧
  (∀ (V : Chain) (i : Nat) (_ : i < 8), (Response.digest (digestBytes V)).data.extractLsb' (224 - 32 * i) 32 = V[i]) ∧
  (∀ w : Word, (Response.status w).data.extractLsb' 0 32 = w ∧ (Response.status w).data.extractLsb' 32 224 = 0) ∧
  (∀ n : BitVec 64, (Response.count n).data.extractLsb' 0 64 = n ∧ (Response.count n).data.extractLsb' 64 192 = 0) ∧
  (∀ u : UsageReason, (Response.usageError u).data.extractLsb' 0 8 = u.code ∧
    (Response.usageError u).data.extractLsb' 8 248 = 0)

/-- R78: the reason codes, and that no other is produced. -/
def Obligations.UsageErrorReasonCodes : Prop :=
  UsageReason.updateAfterFinal.code = 0x01 ∧ UsageReason.finalAfterFinal.code = 0x02 ∧
  UsageReason.notFinalized.code = 0x03 ∧ UsageReason.lengthLimit.code = 0x04 ∧ UsageReason.countSaturated.code = 0x05 ∧
  ∀ u : UsageReason, 0x01 ≤ u.code.toNat ∧ u.code.toNat ≤ 0x05

/-! ## Datapath (spec/40 to 43) -/

/-- R101, R102: bit `i` of the rotated word is bit `(i - n) mod 32` of the word, for every amount, masked to `n mod 32`; amount 0 is
the identity; the number of 1 bits is kept; the two constant words are fixed; the rule's example. -/
def Obligations.RotatorMovesEveryBit : Prop :=
  (∀ (x : Word) (n i : Nat), i < 32 → (rotl32 x n).getLsbD i = x.getLsbD ((i + (32 - n % 32)) % 32)) ∧
  (∀ (x : Word) (n : Nat), 0 < n % 32 → rotl32 x n = (x <<< (n % 32)) ||| (x >>> (32 - n % 32))) ∧
  (∀ (x : Word) (n : Nat), rotl32 x n = rotl32 x (n % 32)) ∧
  (∀ x : Word, rotl32 x 0 = x) ∧
  (∀ (x : Word) (n : Nat),
    (List.range 32).countP (fun i => (rotl32 x n).getLsbD i) = (List.range 32).countP (fun i => x.getLsbD i)) ∧
  (∀ n : Nat, rotl32 0 n = 0 ∧ rotl32 0xFFFFFFFF n = 0xFFFFFFFF) ∧
  rotl32 0x80000001 1 = 0x00000003

/-- The endian converter's two directions undo each other, for every length (40_word_primitives.md section 2, its sentence
"`bytesToWordsBE(wordsToBytesBE(w)) = w` for every word sequence w", marked derived there). -/
def Obligations.EndianConverterRoundTrip : Prop :=
  (∀ (m : Nat) (w : Vector Word m), bytesToWordsBE (wordsToBytesBE w) = w) ∧
  (∀ (m : Nat) (s : Vector Byte (4 * m)), wordsToBytesBE (bytesToWordsBE s) = s)

/-- R54: digest byte `4i + k` is bits `31-8k : 24-8k` of `V[i]`. -/
def Obligations.DigestByteOrder : Prop :=
  ∀ (V : Chain) (i k : Nat) (_ : i < 8) (_ : k < 4),
    (digestBytes V)[4 * i + k] = V[i].extractLsb' (24 - 8 * k) 8

/-- R55, R106: the length field is big-endian: its byte `k` is bits `63-8k : 56-8k` of the length, so the eight bytes read as one
number are the length; the rule's example. -/
def Obligations.LengthFieldIsBigEndian : Prop :=
  (∀ (L : BitVec 64) (k : Nat) (_ : k < 8), (be64 L)[k] = L.extractLsb' (56 - 8 * k) 8) ∧
  (∀ L : BitVec 64, (be64 L).toList.foldl (fun acc b => 256 * acc + b.toNat) 0 = L.toNat) ∧
  be64 24 = #v[0x00, 0x00, 0x00, 0x00, 0x00, 0x00, 0x00, 0x18]

/-- R120, R122, R123: the initial value, the round constants and the constant ROM, with the ROM's corner cases. -/
def Obligations.ConstantsAndTheirRom : Prop :=
  IV = #v[0x7380166F, 0x4914B2B9, 0x172442D7, 0xDA8A0600, 0xA96F30BC, 0x163138AA, 0xE38DEE4D, 0xB0FB0E4E] ∧
  (∀ j : Fin 64, T j = if j.val ≤ 15 then 0x79CC4519 else 0x7A879D8A) ∧
  (∀ j : Fin 64, ROM j = rotl32 (T j) (j.val % 32)) ∧
  ROM 0 = T 0 ∧ ROM 32 = T 32 ∧ ROM 32 = 0x7A879D8A ∧
  (∀ j : Fin 64, 16 ≤ j.val → j.val < 32 → ROM (j + 32) = ROM j)

/-- R124, R125: the round functions at every index and bit, the corner cases and the examples. -/
def Obligations.BooleanRoundFunctions : Prop :=
  (∀ (j : Fin 64) (X Y Z : Word), j.val ≤ 15 → FF j X Y Z = X ^^^ Y ^^^ Z ∧ GG j X Y Z = X ^^^ Y ^^^ Z) ∧
  (∀ (j : Fin 64) (X Y Z : Word), 16 ≤ j.val →
    FF j X Y Z = (X &&& Y) ||| (X &&& Z) ||| (Y &&& Z) ∧ GG j X Y Z = (X &&& Y) ||| (~~~X &&& Z)) ∧
  (∀ (j : Fin 64) (X Y Z : Word) (i : Nat), 16 ≤ j.val → i < 32 →
    (GG j X Y Z).getLsbD i = if X.getLsbD i then Y.getLsbD i else Z.getLsbD i) ∧
  (∀ (j : Fin 64) (X Z : Word), FF j X X Z = if 16 ≤ j.val then X else Z) ∧
  (∀ (j : Fin 64) (Y Z : Word), 16 ≤ j.val → GG j 0xFFFFFFFF Y Z = Y ∧ GG j 0 Y Z = Z) ∧
  FF 0 0x0F0F0F0F 0x00FF00FF 0x3333CCCC = 0x3CC3C33C ∧ FF 16 0x0F0F0F0F 0x00FF00FF 0x3333CCCC = 0x033F0CCF ∧
  GG 15 0x0F0F0F0F 0x00FF00FF 0x3333CCCC = 0x3CC3C33C ∧ GG 16 0x0F0F0F0F 0x00FF00FF 0x3333CCCC = 0x303FC0CF

/-- R126, R127: the permutations' formulas, their fixed words, that both are linear over xor, and the examples. -/
def Obligations.PermutationsAreLinear : Prop :=
  (∀ X : Word, P0 X = X ^^^ rotl32 X 9 ^^^ rotl32 X 17 ∧ P1 X = X ^^^ rotl32 X 15 ^^^ rotl32 X 23) ∧
  (∀ X Y : Word, P0 (X ^^^ Y) = P0 X ^^^ P0 Y ∧ P1 (X ^^^ Y) = P1 X ^^^ P1 Y) ∧
  P0 0 = 0 ∧ P0 0xFFFFFFFF = 0xFFFFFFFF ∧ P1 0 = 0 ∧ P1 0xFFFFFFFF = 0xFFFFFFFF ∧
  P0 0x00000001 = 0x00020201 ∧ P0 0x12345678 = 0xD6688234 ∧
  P1 0x00000001 = 0x00808001 ∧ P1 0x80000000 = 0x80404000 ∧ P1 0x12345678 = 0x05014549

/-- R53, R141: the first sixteen words of the schedule are the block's bytes, big-endian (the first byte in bits 31:24). -/
def Obligations.MessageWordsAreBigEndian : Prop :=
  ∀ (block : Block) (i : Nat) (_ : i < 16),
    (Expand block).W[i] = block[4 * i] ++ block[4 * i + 1] ++ block[4 * i + 2] ++ block[4 * i + 3]

/-- R142, R143: the expansion recurrence at every index 16..67, each word from the earlier words of the same schedule, and the
derived words at every index 0..63. -/
def Obligations.ScheduleRecurrence : Prop :=
  ∀ block : Block,
    (∀ (j : Nat) (_ : 16 ≤ j) (_ : j < 68),
      (Expand block).W[j] =
        P1 ((Expand block).W[j - 16] ^^^ (Expand block).W[j - 9] ^^^ rotl32 (Expand block).W[j - 3] 15) ^^^
          rotl32 (Expand block).W[j - 13] 7 ^^^ (Expand block).W[j - 6]) ∧
    (∀ (j : Nat) (_ : j < 64), (Expand block).W'[j] = (Expand block).W[j] ^^^ (Expand block).W[j + 4])

/-- R162, R163: one round as one parallel assignment from the pre-round values. -/
def Obligations.RoundIsOneParallelAssignment : Prop :=
  ∀ (sch : Schedule) (j : Fin 64) (A B C D E F G H SS1 SS2 TT1 TT2 : Word),
    SS1 = rotl32 (rotl32 A 12 + E + rotl32 (T j) (j.val % 32)) 7 →
    SS2 = SS1 ^^^ rotl32 A 12 →
    TT1 = FF j A B C + D + SS2 + sch.W'[j.val] →
    TT2 = GG j E F G + H + SS1 + sch.W[j.val] →
    compressionRound sch j ⟨A, B, C, D, E, F, G, H⟩ = ⟨TT1, A, rotl32 B 9, C, P0 TT2, E, rotl32 F 19, G⟩

/-- R161, R164, R165: the working registers are loaded from V, the 64 rounds run in order 0..63, each on the registers the round
before it left, and the result is xored into V word by word. -/
def Obligations.CompressionRunsRoundsInOrder : Prop :=
  ∀ (V : Chain) (block : Block), ∃ regs : Fin 65 → Working,
    regs 0 = ⟨V[0], V[1], V[2], V[3], V[4], V[5], V[6], V[7]⟩ ∧
    (∀ j : Fin 64, regs j.succ = compressionRound (Expand block) j (regs j.castSucc)) ∧
    CF V block = #v[V[0] ^^^ (regs 64).A, V[1] ^^^ (regs 64).B, V[2] ^^^ (regs 64).C, V[3] ^^^ (regs 64).D,
      V[4] ^^^ (regs 64).E, V[5] ^^^ (regs 64).F, V[6] ^^^ (regs 64).G, V[7] ^^^ (regs 64).H]

/-- The compression of the padded "abc" block, and the corner vector of an all-zero block (95_test_vectors.md section 3). -/
def Obligations.CompressionOfKnownBlocks : Prop :=
  CF IV ((#v[0x61, 0x62, 0x63, 0x80] : Vector Byte 4) ++ (Vector.replicate 59 0 : Vector Byte 59) ++ (#v[0x18] : Vector Byte 1)) =
    #v[0x66C7F0F4, 0x62EEEDD9, 0xD1F2D46B, 0xDC10E4E2, 0x4167C487, 0x5CF2F7A2, 0x297DA02B, 0x8F4BA8E0] ∧
  CF IV (Vector.replicate 64 0) =
    #v[0xA1203A40, 0x4A5566CD, 0x536FCEE8, 0x20DF7E13, 0x35C58F56, 0xB7C4C62E, 0x813C32CC, 0x47BF9B6C]

/-! ## Reset -/

/-- R38, R260: after power-on reset, and after RESET, V = IV, OFFSET = 0, COUNT = 0, FIN = 0; RESET leaves BUF unchanged; while `rst`
is asserted no command is accepted and no response is produced. -/
def Obligations.ResetValues : Prop :=
  (State.reset.V = IV ∧ State.reset.OFFSET = 0 ∧ State.reset.COUNT = 0 ∧ State.reset.FIN = false) ∧
  (∀ (s : State) (later : List HostEvent), s.port = .rst :: later →
    ∃ t, step s = .next t ∧ t.V = IV ∧ t.OFFSET = 0 ∧ t.COUNT = 0 ∧ t.FIN = false ∧
      t.port = later ∧ (s.rsp = none → t.rsp = none)) ∧
  (∀ s : State, ∃ t, exec .reset s = .next t ∧ t.V = IV ∧ t.OFFSET = 0 ∧ t.COUNT = 0 ∧ t.FIN = false ∧ t.BUF = s.BUF)

/-- R183: RESET in either state restores V, OFFSET, COUNT and FIN, keeps BUF, and answers ACK; twice is the same as once; its word;
its example. -/
def Obligations.ResetRestoresTheInitialState : Prop :=
  decode 0x0100 = .ok .reset ∧
  ∀ s : State, ∃ t, exec .reset s = .next t ∧
    t.V = IV ∧ t.OFFSET = 0 ∧ t.COUNT = 0 ∧ t.FIN = false ∧ t.rsp = some .ack ∧
    t.BUF = s.BUF ∧ t.port = s.port ∧
    exec .reset t = .next t ∧
    ∃ u, exec .readStatus t = .next u ∧ u.rsp = some (.status 0x00000000)

/-- "So after either, every sequence of commands gets the same responses" (70_reset_and_hazards.md section 1, marked derived
there): RESET and power-on reset cannot be told apart by any command sequence. -/
def Obligations.ResetIsPowerOnForEveryCommandSequence : Prop :=
  ∀ (s : State) (i : Instr) (is : List Instr), ∃ t u,
    execAll (.reset :: is ++ [i]) s = .next t ∧ execAll (is ++ [i]) State.reset = .next u ∧
    t.rsp = u.rsp ∧ t.V = u.V ∧ t.OFFSET = u.OFFSET ∧ t.COUNT = u.COUNT ∧ t.FIN = u.FIN

/-! ## UPDATE -/

/-- R181, R182: absorb writes its byte at BUF[OFFSET] and nothing else of BUF, steps OFFSET, and at OFFSET = 63 compresses the
whole block into V and returns OFFSET to 0; it touches neither COUNT nor FIN. -/
def Obligations.AbsorbWritesOneByteAndCompressesAtTheBoundary : Prop :=
  ∀ (b : Byte) (s : State),
    Memory.read (absorb b s).BUF s.OFFSET.toNat = some b ∧
    (∀ i, i ≠ s.OFFSET.toNat → Memory.read (absorb b s).BUF i = Memory.read s.BUF i) ∧
    (s.OFFSET ≠ 63 → (absorb b s).OFFSET.toNat = s.OFFSET.toNat + 1 ∧ (absorb b s).V = s.V) ∧
    (s.OFFSET = 63 → (absorb b s).OFFSET = 0 ∧
      (absorb b s).V = CF s.V (Vector.ofFn fun i : Fin 64 => if i.val < 63 then bufByte s.BUF i.val else b)) ∧
    (absorb b s).COUNT = s.COUNT ∧ (absorb b s).FIN = s.FIN ∧
    (absorb b s).rsp = s.rsp ∧ (absorb b s).port = s.port

/-- R184: UPDATE in Accepting below the counter's end is accepted for every byte: COUNT counts it, the byte is absorbed at
BUF[OFFSET], at OFFSET = 63 the block is compressed, and the answer is ACK. Its frame: FIN, every other byte of BUF, and V away
from the block boundary. Its two rejections, the state check first; its word; its example of 64 and of 63 UPDATEs from reset. -/
def Obligations.UpdateAppendsOneByte : Prop :=
  (∀ b : Byte, decode (0x0200 ||| b.setWidth 16) = .ok (.update b)) ∧
  (∀ (b : Byte) (s : State), s.FIN = false → s.COUNT.toNat < 2 ^ 64 - 1 →
    ∃ t, exec (.update b) s = .next t ∧
      t.COUNT.toNat = s.COUNT.toNat + 1 ∧ t.FIN = false ∧ t.rsp = some .ack ∧ t.port = s.port ∧
      Memory.read t.BUF s.OFFSET.toNat = some b ∧
      (∀ a, a ≠ s.OFFSET.toNat → Memory.read t.BUF a = Memory.read s.BUF a) ∧
      t.OFFSET.toNat = (s.OFFSET.toNat + 1) % 64 ∧
      (s.OFFSET ≠ 63 → t.V = s.V) ∧
      (s.OFFSET = 63 →
        t.V = CF s.V (Vector.ofFn fun i : Fin 64 => if i.val < 63 then bufByte s.BUF i.val else b))) ∧
  (∀ (b : Byte) (s : State), s.FIN = true →
    exec (.update b) s = .next { s with rsp := some (.usageError .updateAfterFinal) }) ∧
  (∀ (b : Byte) (s : State), s.FIN = false → s.COUNT.toNat = 2 ^ 64 - 1 →
    exec (.update b) s = .next { s with rsp := some (.usageError .countSaturated) }) ∧
  ∀ block : Block,
    (∃ t, execAll (updateCommands block.toList) State.reset = .next t ∧
      t.OFFSET = 0 ∧ t.COUNT = 64 ∧ t.V = CF IV block ∧ t.FIN = false) ∧
    (∃ t, execAll (updateCommands (block.toList.take 63)) State.reset = .next t ∧
      t.OFFSET = 63 ∧ t.COUNT = 63 ∧ t.V = IV ∧ t.FIN = false)

/-- 20_memory.md section 1 "Buffer map", marked derived there: after RESET and the UPDATEs of a message, BUF holds the tail of the
message that is no whole block, OFFSET is that tail's length, and V is every whole block compressed in order from IV. -/
def Obligations.BufferHoldsTheMessageTail : Prop :=
  ∀ (s : State) (m : List Byte), m.length < 2 ^ 64 →
    ∃ t, execAll (.reset :: updateCommands m) s = .next t ∧
      t.FIN = false ∧ t.COUNT.toNat = m.length ∧ t.OFFSET.toNat = m.length % 64 ∧
      t.V = compressBlocks IV m (m.length / 64) ∧
      ∀ i, i < m.length % 64 → Memory.read t.BUF i = m[64 * (m.length / 64) + i]?

/-- UPDATE_BYTES on a finalized engine (30_encoding.md section 4: "the rejected UPDATE changes nothing and later ones are issued
regardless"): every UPDATE is rejected and nothing but the response changes. -/
def Obligations.UpdateBytesAfterFinalChangesNothing : Prop :=
  ∀ (s : State) (b : Byte) (m : List Byte), s.FIN = true →
    execAll ((Pseudo.updateBytes (b :: m)).expand) s = .next { s with rsp := some (.usageError .updateAfterFinal) }

/-! ## FINAL -/

/-- R185: FINAL in Accepting with COUNT < 2^61 is accepted: the bytes absorbed are 0x80, `k = (55 - OFFSET) mod 64` zeros and the
eight bytes of the exact bit length; FIN becomes 1, COUNT keeps the message length, OFFSET ends at 0, and the answer is the
digest serialized from the final V. Its two rejections, the state check first; its word; its example. -/
def Obligations.FinalPadsAndReturnsTheDigest : Prop :=
  decode 0x0300 = .ok .final ∧
  (∀ s : State, s.FIN = false → s.COUNT.toNat < 2 ^ 61 →
    ∃ (t : State) (L : BitVec 64) (k : Nat), exec .final s = .next t ∧
      L.toNat = 8 * s.COUNT.toNat ∧ (k : Int) = (55 - (s.OFFSET.toNat : Int)) % 64 ∧
      (let u := absorbAll (0x80#8 :: (List.replicate k 0x00#8 ++ (be64 L).toList)) s
       t.V = u.V ∧ t.BUF = u.BUF ∧ t.OFFSET = u.OFFSET) ∧
      t.FIN = true ∧ t.COUNT = s.COUNT ∧ t.OFFSET = 0 ∧ t.port = s.port ∧
      t.rsp = some (.digest (digestBytes t.V))) ∧
  (∀ s : State, s.FIN = true → exec .final s = .next { s with rsp := some (.usageError .finalAfterFinal) }) ∧
  (∀ s : State, s.FIN = false → 2 ^ 61 ≤ s.COUNT.toNat →
    exec .final s = .next { s with rsp := some (.usageError .lengthLimit) }) ∧
  ∃ t, execAll [.update 0x61, .update 0x62, .update 0x63, .final] State.reset = .next t ∧
    t.rsp.map Response.data = some 0x66c7f0f462eeedd9d1f2d46bdc10e4e24167c4875cf2f7a2297da02b8f4ba8e0

/-- FINAL with OFFSET <= 55 compresses exactly one block (44_streaming_commands.md section 4 "Number of padding blocks", marked
derived there): the tail, 0x80, zeros and the length. Its frame: BUF below OFFSET is kept, BUF[OFFSET..63] holds the padding, and
COUNT is kept. -/
def Obligations.FinalCompressesOneBlockUpToOffset55 : Prop :=
  ∀ s : State, s.FIN = false → s.COUNT.toNat < 2 ^ 61 → s.OFFSET.toNat ≤ 55 →
    ∃ t, exec .final s = .next t ∧
      t.V = CF s.V (paddedBlock s) ∧ t.rsp = some (.digest (digestBytes (CF s.V (paddedBlock s)))) ∧
      t.OFFSET = 0 ∧ t.FIN = true ∧ t.COUNT = s.COUNT ∧ t.port = s.port ∧
      (∀ a, a < s.OFFSET.toNat ∨ 64 ≤ a → Memory.read t.BUF a = Memory.read s.BUF a) ∧
      (∀ (a : Nat) (_ : a < 64), s.OFFSET.toNat ≤ a → Memory.read t.BUF a = some (paddedBlock s)[a])

/-- FINAL with OFFSET >= 56 compresses exactly two blocks (the same section, marked derived there): "the zeros run to the end of the
block and through bytes 0..55 of a second block, and the length fills bytes 56..63 of that second block". Its frame: all of BUF
holds the second block, and COUNT is kept. -/
def Obligations.FinalCompressesTwoBlocksFromOffset56 : Prop :=
  ∀ s : State, s.FIN = false → s.COUNT.toNat < 2 ^ 61 → 56 ≤ s.OFFSET.toNat →
    ∃ t, exec .final s = .next t ∧
      t.V = CF (CF s.V (spilledBlock s)) (lengthBlock s) ∧ t.rsp = some (.digest (digestBytes t.V)) ∧
      t.OFFSET = 0 ∧ t.FIN = true ∧ t.COUNT = s.COUNT ∧ t.port = s.port ∧
      (∀ a, 64 ≤ a → Memory.read t.BUF a = Memory.read s.BUF a) ∧
      (∀ (a : Nat) (_ : a < 64), Memory.read t.BUF a = some (lengthBlock s)[a])

/-- The padding controller (44_streaming_commands.md section 3 "Padding controller", marked derived there): the padded message is a
whole number of blocks, the zeros are the least that bring the length field to 56 modulo 64, and what FINAL absorbs in a state
that meets the invariant is `pad(COUNT)`. -/
def Obligations.PaddingFillsTheBlock : Prop :=
  (∀ n : Nat, (n + (pad n).length) % 64 = 0 ∧ (n + 1 + padZeros n) % 64 = 56 ∧
    ∀ k, (n + 1 + k) % 64 = 56 → padZeros n ≤ k) ∧
  (∀ s : State, Inv s → s.FIN = false → s.COUNT.toNat < 2 ^ 61 → paddingBytes s.OFFSET s.COUNT = pad s.COUNT.toNat)

/-! ## The reading commands -/

/-- R188: READ_DIGEST in Finalized answers the 32 bytes of V and writes no state; in Accepting it is rejected NOT_FINALIZED; its
word; its example. -/
def Obligations.ReadDigestSerializesTheChainingState : Prop :=
  decode 0x0400 = .ok .readDigest ∧
  (∀ s : State, s.FIN = true →
    ∃ d, exec .readDigest s = .next { s with rsp := some (.digest d) } ∧
      ∀ (i k : Nat) (_ : i < 8) (_ : k < 4), d[4 * i + k] = s.V[i].extractLsb' (24 - 8 * k) 8) ∧
  (∀ s : State, s.FIN = false → exec .readDigest s = .next { s with rsp := some (.usageError .notFinalized) }) ∧
  ∃ t, execAll ((Pseudo.digestMsg [0x61, 0x62, 0x63]).expand ++ [.readDigest]) State.reset = .next t ∧
    t.rsp.map Response.data = some 0x66c7f0f462eeedd9d1f2d46bdc10e4e24167c4875cf2f7a2297da02b8f4ba8e0

/-- R36, R189: READ_STATUS in either state answers the status word, bit 0 FIN, bits 13:8 OFFSET, every other bit 0, and writes no
state; its word; its example. -/
def Obligations.ReadStatusShowsFinAndOffset : Prop :=
  decode 0x0500 = .ok .readStatus ∧
  (∀ s : State, ∃ w, exec .readStatus s = .next { s with rsp := some (.status w) } ∧
    w.extractLsb' 0 1 = BitVec.ofBool s.FIN ∧ w.extractLsb' 1 7 = 0 ∧
    w.extractLsb' 8 6 = s.OFFSET ∧ w.extractLsb' 14 18 = 0 ∧
    (Inv s → s.FIN = true → w = 0x00000001)) ∧
  (∃ t, execAll ((Pseudo.updateBytes [0x61, 0x62, 0x63]).expand ++ [.readStatus]) State.reset = .next t ∧
    t.rsp = some (.status 0x00000300)) ∧
  ∃ t, execAll ((Pseudo.digestMsg [0x61, 0x62, 0x63]).expand ++ [.readStatus]) State.reset = .next t ∧
    t.rsp = some (.status 0x00000001)

/-- R37, R190: READ_COUNT in either state answers the 64-bit COUNT and writes no state, before FINAL and after it; its word; its
example. -/
def Obligations.ReadCountShowsTheMessageLength : Prop :=
  decode 0x0600 = .ok .readCount ∧
  (∀ s : State, exec .readCount s = .next { s with rsp := some (.count s.COUNT) }) ∧
  (∀ s t : State, s.FIN = false → s.COUNT.toNat < 2 ^ 61 → exec .final s = .next t →
    exec .readCount t = .next { t with rsp := some (.count s.COUNT) }) ∧
  ∃ t, execAll ((Pseudo.digestMsg [0x61, 0x62, 0x63]).expand ++ [.readCount]) State.reset = .next t ∧
    t.rsp = some (.count 3)

/-- 20_memory.md section 3 "Read side effects", marked derived there: any number of reading commands, in any order, leave every item
but the response as it was, and a reading command then answers what it would have answered before them. -/
def Obligations.ReadingCommandsHaveNoSideEffects : Prop :=
  ∀ (s : State) (i : Instr) (is : List Instr), readsOnly i = true → (∀ j ∈ is, readsOnly j = true) →
    ∃ t u, execAll is s = .next t ∧ { t with rsp := s.rsp } = s ∧
      exec i t = .next u ∧ exec i s = .next u

/-- "returns the same 32 bytes as the FINAL that entered Finalized, any number of times, because nothing writes V in Finalized"
(44_streaming_commands.md section 3, marked derived there): whatever commands but RESET follow an accepted FINAL. -/
def Obligations.DigestStaysReadableUntilReset : Prop :=
  ∀ (s : State) (is : List Instr), s.FIN = false → s.COUNT.toNat < 2 ^ 61 → Instr.reset ∉ is →
    ∃ (t u v : State) (d : Vector Byte 32), exec .final s = .next t ∧ t.rsp = some (.digest d) ∧
      execAll is t = .next u ∧ exec .readDigest u = .next v ∧ v.rsp = some (.digest d)

/-! ## Errors (spec/60_exceptions.md) -/

/-- R231: each usage error has its code and exactly its commands and its cause, and records nothing beyond it. -/
def Obligations.UsageErrorsHaveExactlyTheirCauses : Prop :=
  (UsageReason.updateAfterFinal.code = 0x01 ∧ UsageReason.finalAfterFinal.code = 0x02 ∧
    UsageReason.notFinalized.code = 0x03 ∧ UsageReason.lengthLimit.code = 0x04 ∧ UsageReason.countSaturated.code = 0x05) ∧
  ∀ (i : Instr) (s : State), ∃ t, exec i s = .next t ∧
    (t.rsp = some (.usageError .updateAfterFinal) ↔ (∃ b, i = .update b) ∧ s.FIN = true) ∧
    (t.rsp = some (.usageError .finalAfterFinal) ↔ i = .final ∧ s.FIN = true) ∧
    (t.rsp = some (.usageError .notFinalized) ↔ i = .readDigest ∧ s.FIN = false) ∧
    (t.rsp = some (.usageError .lengthLimit) ↔ i = .final ∧ s.FIN = false ∧ 2 ^ 61 ≤ s.COUNT.toNat) ∧
    (t.rsp = some (.usageError .countSaturated) ↔ (∃ b, i = .update b) ∧ s.FIN = false ∧ s.COUNT.toNat = 2 ^ 64 - 1) ∧
    ((∃ u, t.rsp = some (.usageError u)) → t = { s with rsp := t.rsp })

/-- R232: a rejected or illegal command changes no architectural state, and the next command is processed as it would have been
without it. -/
def Obligations.RejectedCommandsChangeNoState : Prop :=
  ∀ (w : CmdWord) (s t : State), runWord w s = .next t →
    ((∃ u, t.rsp = some (.usageError u)) ∨ t.rsp = some .illegalCommand) →
    t.V = s.V ∧ t.BUF = s.BUF ∧ t.OFFSET = s.OFFSET ∧ t.COUNT = s.COUNT ∧ t.FIN = s.FIN ∧ t.port = s.port ∧
    ∀ w' : CmdWord, runWord w' t = runWord w' s

/-- R233: an illegal word gets ILLEGAL_COMMAND with data 0, in either state, and changes no state. -/
def Obligations.IllegalWordsAnswerIllegalCommand : Prop :=
  Response.illegalCommand.data = 0 ∧
  ∀ (w : CmdWord) (s : State), IllegalWord w → runWord w s = .next { s with rsp := some .illegalCommand }

/-- R235: of several conditions only the first is reported: an illegal word before any state check, the state check before the
length checks. -/
def Obligations.ErrorPriority : Prop :=
  (∀ (w : CmdWord) (s : State), IllegalWord w → ∃ t, runWord w s = .next t ∧ t.rsp = some .illegalCommand) ∧
  (∀ s : State, ∃ t, runWord 0x0301 s = .next t ∧ t.rsp = some .illegalCommand) ∧
  (∀ s : State, s.FIN = true →
    (∃ t, exec .final s = .next t ∧ t.rsp = some (.usageError .finalAfterFinal)) ∧
    ∀ b, ∃ t, exec (.update b) s = .next t ∧ t.rsp = some (.usageError .updateAfterFinal)) ∧
  (∀ s : State, s.FIN = false →
    (∃ t, exec .readDigest s = .next t ∧ t.rsp = some (.usageError .notFinalized)) ∧
    (2 ^ 61 ≤ s.COUNT.toNat → ∃ t, exec .final s = .next t ∧ t.rsp = some (.usageError .lengthLimit)) ∧
    (s.COUNT.toNat = 2 ^ 64 - 1 → ∀ b, ∃ t, exec (.update b) s = .next t ∧ t.rsp = some (.usageError .countSaturated)))

/-- R180: the transition table of the block-boundary state machine, row by row: next state, other effect, response; its
initial state, and that only RESET, or power-on reset, leaves Finalized. -/
def Obligations.TransitionTable : Prop :=
  State.reset.FIN = false ∧
  (∀ (i : Instr) (s t : State), exec i s = .next t → s.FIN = true → t.FIN = false → i = .reset) ∧
  (∀ (s : State) (later : List HostEvent), s.port = .rst :: later → ∃ t, step s = .next t ∧ t.FIN = false) ∧
  ∀ s : State,
    (∃ t, exec .reset s = .next t ∧ t.FIN = false ∧ t.V = IV ∧ t.OFFSET = 0 ∧ t.COUNT = 0 ∧ t.rsp = some .ack) ∧
    (s.FIN = false →
      (∀ b, s.COUNT.toNat < 2 ^ 64 - 1 → ∃ t, exec (.update b) s = .next t ∧ t.FIN = false ∧
        t.COUNT = s.COUNT + 1 ∧ t.rsp = some .ack ∧
        t.V = (absorb b s).V ∧ t.BUF = (absorb b s).BUF ∧ t.OFFSET = (absorb b s).OFFSET) ∧
      (∀ b, s.COUNT.toNat = 2 ^ 64 - 1 → exec (.update b) s = .next { s with rsp := some (.usageError .countSaturated) }) ∧
      (s.COUNT.toNat < 2 ^ 61 → ∃ t, exec .final s = .next t ∧ t.FIN = true ∧ t.COUNT = s.COUNT ∧
        (let u := absorbAll (paddingBytes s.OFFSET s.COUNT) s
         t.V = u.V ∧ t.BUF = u.BUF ∧ t.OFFSET = u.OFFSET) ∧
        (t.V = CF s.V (paddedBlock s) ∨ t.V = CF (CF s.V (spilledBlock s)) (lengthBlock s)) ∧
        t.rsp = some (.digest (digestBytes t.V))) ∧
      (2 ^ 61 ≤ s.COUNT.toNat → exec .final s = .next { s with rsp := some (.usageError .lengthLimit) }) ∧
      exec .readDigest s = .next { s with rsp := some (.usageError .notFinalized) }) ∧
    (s.FIN = true →
      (∀ b, exec (.update b) s = .next { s with rsp := some (.usageError .updateAfterFinal) }) ∧
      exec .final s = .next { s with rsp := some (.usageError .finalAfterFinal) } ∧
      exec .readDigest s = .next { s with rsp := some (.digest (digestBytes s.V)) }) ∧
    exec .readStatus s = .next { s with rsp := some (.status (statusWord s)) } ∧
    exec .readCount s = .next { s with rsp := some (.count s.COUNT) } ∧
    ∀ (w : CmdWord), IllegalWord w → runWord w s = .next { s with rsp := some .illegalCommand }

/-! ## Whole-machine rules -/

/-- R25: FIN starts false, is set only by an accepted FINAL, and is cleared only by RESET or power-on reset. -/
def Obligations.FinChangesOnlyByFinalAndReset : Prop :=
  State.reset.FIN = false ∧
  ∀ s t : State, step s = .next t →
    (s.FIN = false → t.FIN = true →
      ∃ w later, s.port = .command w :: later ∧ s.rsp = none ∧ decode w = .ok .final ∧ ∃ d, t.rsp = some (.digest d)) ∧
    (s.FIN = true → t.FIN = false →
      (∃ later, s.port = .rst :: later) ∨
      ∃ w later, s.port = .command w :: later ∧ s.rsp = none ∧ decode w = .ok .reset)

/-- R24: COUNT is incremented by 1 by each accepted UPDATE and by nothing else; it never wraps, an UPDATE that would carry it past
2^64 - 1 being rejected; otherwise only a reset changes it, to 0, so between resets it never decreases. -/
def Obligations.CountCountsAcceptedUpdatesOnly : Prop :=
  (∀ (b : Byte) (s : State), s.FIN = false → s.COUNT.toNat < 2 ^ 64 - 1 →
    ∃ t, exec (.update b) s = .next t ∧ t.COUNT.toNat = s.COUNT.toNat + 1) ∧
  (∀ (b : Byte) (s : State), s.COUNT.toNat = 2 ^ 64 - 1 → ∃ t u, exec (.update b) s = .next t ∧ t.COUNT = s.COUNT ∧
    t.rsp = some (.usageError u)) ∧
  ∀ s t : State, step s = .next t →
    t.COUNT = s.COUNT ∨
    (t.COUNT.toNat = s.COUNT.toNat + 1 ∧ t.rsp = some .ack ∧
      ∃ w later b, s.port = .command w :: later ∧ s.rsp = none ∧ decode w = .ok (.update b)) ∨
    (t.COUNT = 0 ∧
      ((∃ later, s.port = .rst :: later) ∨
        ∃ w later, s.port = .command w :: later ∧ s.rsp = none ∧ decode w = .ok .reset))

/-- 10_state.md section 1 on the chaining state ("V is written only by the compression step ... and by reset"): an accepted UPDATE that
fills the block, an accepted FINAL, RESET and power-on reset are the only things that change V. -/
def Obligations.ChainingStateIsWrittenOnlyByCompressionAndReset : Prop :=
  State.reset.V = IV ∧
  ∀ s t : State, step s = .next t → t.V ≠ s.V →
    (t.V = IV ∧ ((∃ later, s.port = .rst :: later) ∨
      ∃ w later, s.port = .command w :: later ∧ s.rsp = none ∧ decode w = .ok .reset)) ∨
    (∃ w later, s.port = .command w :: later ∧ s.rsp = none ∧ s.FIN = false ∧
      ((∃ b, decode w = .ok (.update b) ∧ s.OFFSET = 63 ∧ ∃ block, t.V = CF s.V block) ∨
       (decode w = .ok .final ∧
        (t.V = CF s.V (paddedBlock s) ∨ t.V = CF (CF s.V (spilledBlock s)) (lengthBlock s)))))

/-- Every command is answered and nothing stops the engine (60_exceptions.md sections 1 and 2: an error is a response, and the
contract violations are unreachable): from every state a step gives a next state. -/
def Obligations.EveryStepAnswersANextState : Prop :=
  ∀ s : State, ∃ t, step s = .next t

/-- R79: every accepted command word produces exactly one response, and without one the engine produces none: the response port then
keeps what it held or is emptied. -/
def Obligations.OneResponsePerAcceptedCommand : Prop :=
  ∀ s t : State, step s = .next t →
    (∀ w later, s.port = .command w :: later → s.rsp = none → ∃ r, t.rsp = some r ∧ t.port = later) ∧
    ((¬ ∃ w later, s.port = .command w :: later ∧ s.rsp = none) → t.rsp = s.rsp ∨ t.rsp = none)

/-- The step fetches from the command port: when the port is ready and the word presented decodes to a command, the step is that
command's meaning, run on the state with the word no longer on the port. -/
def Obligations.StepRunsTheDecodedCommand : Prop :=
  (∀ (s : State) (w : CmdWord) (later : List HostEvent) (i : Instr),
    s.port = .command w :: later → s.rsp = none → decode w = .ok i → step s = exec i { s with port := later }) ∧
  (∀ (s : State) (i : Instr), step (s.withFetchWord 16 (encode i).toNat) = exec i { s with rsp := none })

/-- The handshake of 30_encoding.md section 1 and 70_reset_and_hazards.md section 2: while a response is pending `cmd_ready` is low
and a word presented is not accepted; taking the response makes the port ready again, and so does `rst`, which abandons the command
whose response is pending. That a word not accepted is not held for a later slot, that an idle host leaves the engine as it is, that
a take with nothing pending changes nothing, and that BUF lists no byte after `rst` are the model's (logs 1, 2, 3, 4, 12, 18). -/
def Obligations.PendingResponseHoldsBackCommands : Prop :=
  (∀ (s : State) (w : CmdWord) (later : List HostEvent) (r : Response), s.port = .command w :: later → s.rsp = some r →
    s.cmdReady = false ∧ step s = .next { s with port := later }) ∧
  (∀ (s : State) (later : List HostEvent), s.port = .take :: later →
    ∃ t, step s = .next t ∧ t.cmdReady = true ∧ t.rspValid = false ∧ { t with rsp := s.rsp, port := s.port } = s) ∧
  (∀ (s : State) (later : List HostEvent), s.port = .rst :: later →
    ∃ t, step s = .next t ∧ t.cmdReady = true ∧ ∀ i, Memory.read t.BUF i = none) ∧
  (∀ s : State, s.port = [] → step s = .next s)

/-- 10_state.md section 1 "State invariant", marked derived there, and the model's canonical form of BUF (log 3), at reset. -/
def Obligations.InvariantHoldsAtReset : Prop := Inv State.reset

/-- The same invariant is kept by every step from every state that meets it, whatever the host does. -/
def Obligations.InvariantIsKeptByEveryStep : Prop :=
  ∀ s t : State, Inv s → step s = .next t → Inv t

/-- The canonical form of BUF (log 3) is kept by every step from any state that has it, the rest of the state being anything; and
two canonical buffers that read alike are the same data. -/
def Obligations.BufferStaysCanonical : Prop :=
  (∀ s t : State, Memory.wf s.BUF = true → step s = .next t → Memory.wf t.BUF = true) ∧
  (∀ m n : Memory, Memory.wf m = true → Memory.wf n = true → (∀ i, Memory.read m i = Memory.read n i) → m = n)

/-- 10_state.md section 1 "Bytes BUF[OFFSET..63] are never read before they are written again", marked derived there: two states that
differ only in those bytes step to two states that differ only in those bytes, with the same response. -/
def Obligations.UnwrittenBytesAreUnobservable : Prop :=
  ∀ s t : State, SameButUnwritten s t →
    ∃ s' t', step s = .next s' ∧ step t = .next t' ∧ SameButUnwritten s' t'

/-! ## Messages -/

/-- "Digest of a message" (44_streaming_commands.md section 4, marked derived there): from any state, RESET, UPDATE_BYTES m, FINAL
answers the digest of m: every block of `m || pad(len m)` compressed in order from IV, serialized to 32 bytes. -/
def Obligations.DigestResponseIsTheHashOfTheMessage : Prop :=
  ∀ (s : State) (m : List Byte), m.length < 2 ^ 61 →
    ∃ t, execAll (Pseudo.new.expand ++ (Pseudo.digestMsg m).expand) s = .next t ∧
      t.rsp = some (.digest (digestOf m)) ∧ t.FIN = true ∧ t.COUNT.toNat = m.length

/-- R192: FINAL in Accepting with COUNT = 0, after a reset with no UPDATE (reading commands and further RESETs change nothing of
that), is accepted and answers the digest of the empty message, whose value is 95_test_vectors.md's. -/
def Obligations.EmptyMessageDigest : Prop :=
  (∃ t, exec .final State.reset = .next t ∧ t.rsp = some (.digest (digestOf [])) ∧ t.FIN = true) ∧
  (∀ (s : State) (is : List Instr), (∀ i ∈ is, i = .reset ∨ readsOnly i = true) →
    ∃ t, execAll (.reset :: is ++ [.final]) s = .next t ∧ t.rsp = some (.digest (digestOf [])) ∧ t.FIN = true) ∧
  (Response.digest (digestOf [])).data = 0x1ab21d8355cfa17f8e61194831e81a8f22bec8c728fefb747ed035eb5082aa2b

/-- Known answers of 95_test_vectors.md sections 1 and 4: "abc" (the source's own), and 'a' repeated 55 and 56 times, on either side of
the padding's block boundary. -/
def Obligations.KnownAnswerDigests : Prop :=
  (Response.digest (digestOf [0x61, 0x62, 0x63])).data =
    0x66c7f0f462eeedd9d1f2d46bdc10e4e24167c4875cf2f7a2297da02b8f4ba8e0 ∧
  (Response.digest (digestOf (List.replicate 55 0x61))).data =
    0x288337eef51eec62e7544d7270424c8dbe656254c99852870a73b2453a6a7fb1 ∧
  (Response.digest (digestOf (List.replicate 56 0x61))).data =
    0xba00ebedaab54065a5fd4f9f56326016203166bcee3eed44ea868d59d67aa3c8

/-- "how the host splits a message into `update` chunks cannot change the digest" (44_streaming_commands.md section 4, marked
derived there). -/
def Obligations.ChunkingCannotChangeTheDigest : Prop :=
  ∀ (s : State) (chunks : List (List Byte)), chunks.flatten.length < 2 ^ 61 →
    ∃ t, execAll (.reset :: (chunks.flatMap fun c => (Pseudo.updateBytes c).expand) ++ [.final]) s = .next t ∧
      t.rsp = some (.digest (digestOf chunks.flatten))

/-- A host that presents each word and takes its response runs, step by step, exactly the command sequence: the engine is
sequential and atomic at transaction level (20_memory.md section 4 "Ordering model"; the port's model is log 1). -/
def Obligations.HostTransactionsRunTheCommandSequence : Prop :=
  ∀ (is : List Instr) (s : State) (later : List HostEvent), s.rsp = none → s.port = hostScript is ++ later →
    ∃ t, execAll is { s with port := later } = .next t ∧
      Sys2Proof.core.run (2 * is.length) s = .next { t with rsp := none }

/-- The assembler (30_encoding.md section 4): the word of `UPDATE b` is `0x0200 | b` for each way of writing the byte, the word of
every other command is its OPC followed by 0x00, and the pseudo-commands assemble to their expansions. -/
def Obligations.AssembledWords : Prop :=
  (∀ n : Nat, n ≤ 255 →
    assemble (.update (.hex n)) = some [0x0200 ||| BitVec.ofNat 16 n] ∧
    assemble (.update (.dec n)) = some [0x0200 ||| BitVec.ofNat 16 n]) ∧
  (∀ c : Char, c.toNat < 128 → assemble (.update (.chr c)) = some [0x0200 ||| BitVec.ofNat 16 c.toNat]) ∧
  assemble .reset = some [0x0100] ∧ assemble .final = some [0x0300] ∧ assemble .readDigest = some [0x0400] ∧
  assemble .readStatus = some [0x0500] ∧ assemble .readCount = some [0x0600] ∧ assemble .new = some [0x0100] ∧
  (∀ cs : List Char, (∀ c ∈ cs, c.toNat < 128) →
    assemble (.updateBytes (.ascii cs)) = some (cs.map fun c => 0x0200 ||| BitVec.ofNat 16 c.toNat) ∧
    assemble (.digestMsg (.ascii cs)) = some ((cs.map fun c => 0x0200 ||| BitVec.ofNat 16 c.toNat) ++ [0x0300]))
end

