-- ==== Sys2Proof/Laws/State.lean ====
section
/-!
SUPPORT. One lemma per field and update of State, true by rfl, so that no later proof unfolds a record update.
-/

namespace Sys2Proof.Machine

@[simp] theorem respond_V (r : Response) (s : State) : (respond r s).V = s.V := rfl
@[simp] theorem respond_BUF (r : Response) (s : State) : (respond r s).BUF = s.BUF := rfl
@[simp] theorem respond_OFFSET (r : Response) (s : State) : (respond r s).OFFSET = s.OFFSET := rfl
@[simp] theorem respond_COUNT (r : Response) (s : State) : (respond r s).COUNT = s.COUNT := rfl
@[simp] theorem respond_FIN (r : Response) (s : State) : (respond r s).FIN = s.FIN := rfl
@[simp] theorem respond_rsp (r : Response) (s : State) : (respond r s).rsp = some r := rfl
@[simp] theorem respond_port (r : Response) (s : State) : (respond r s).port = s.port := rfl

@[simp] theorem blockBoundary_V (s : State) : (blockBoundary s).V = CF s.V (memReadBlock s.BUF) := rfl
@[simp] theorem blockBoundary_BUF (s : State) : (blockBoundary s).BUF = s.BUF := rfl
@[simp] theorem blockBoundary_OFFSET (s : State) : (blockBoundary s).OFFSET = 0 := rfl
@[simp] theorem blockBoundary_COUNT (s : State) : (blockBoundary s).COUNT = s.COUNT := rfl
@[simp] theorem blockBoundary_FIN (s : State) : (blockBoundary s).FIN = s.FIN := rfl
@[simp] theorem blockBoundary_rsp (s : State) : (blockBoundary s).rsp = s.rsp := rfl
@[simp] theorem blockBoundary_port (s : State) : (blockBoundary s).port = s.port := rfl

@[simp] theorem powerOnReset_V (s : State) : (powerOnReset s).V = IV := rfl
@[simp] theorem powerOnReset_BUF (s : State) : (powerOnReset s).BUF = [] := rfl
@[simp] theorem powerOnReset_OFFSET (s : State) : (powerOnReset s).OFFSET = 0 := rfl
@[simp] theorem powerOnReset_COUNT (s : State) : (powerOnReset s).COUNT = 0 := rfl
@[simp] theorem powerOnReset_FIN (s : State) : (powerOnReset s).FIN = false := rfl
@[simp] theorem powerOnReset_rsp (s : State) : (powerOnReset s).rsp = none := rfl
@[simp] theorem powerOnReset_port (s : State) : (powerOnReset s).port = s.port := rfl

@[simp] theorem presentWord_V (w : CmdWord) (s : State) : (presentWord w s).V = s.V := rfl
@[simp] theorem presentWord_BUF (w : CmdWord) (s : State) : (presentWord w s).BUF = s.BUF := rfl
@[simp] theorem presentWord_OFFSET (w : CmdWord) (s : State) : (presentWord w s).OFFSET = s.OFFSET := rfl
@[simp] theorem presentWord_COUNT (w : CmdWord) (s : State) : (presentWord w s).COUNT = s.COUNT := rfl
@[simp] theorem presentWord_FIN (w : CmdWord) (s : State) : (presentWord w s).FIN = s.FIN := rfl
@[simp] theorem presentWord_rsp (w : CmdWord) (s : State) : (presentWord w s).rsp = none := rfl
@[simp] theorem presentWord_port (w : CmdWord) (s : State) : (presentWord w s).port = .command w :: s.port := rfl

@[simp] theorem reset_V : State.reset.V = IV := rfl
@[simp] theorem reset_BUF : State.reset.BUF = [] := rfl
@[simp] theorem reset_OFFSET : State.reset.OFFSET = 0 := rfl
@[simp] theorem reset_COUNT : State.reset.COUNT = 0 := rfl
@[simp] theorem reset_FIN : State.reset.FIN = false := rfl
@[simp] theorem reset_rsp : State.reset.rsp = none := rfl
@[simp] theorem reset_port : State.reset.port = [] := rfl

@[simp] theorem respond_respond (q r : Response) (s : State) : respond q (respond r s) = respond q s := rfl

end Sys2Proof.Machine
end

