-- ==== Sys2Proof/Laws/Memory.lean ====
section
/-!
SUPPORT. The block buffer: a read after a write, and that every operation keeps the canonical form.
-/

namespace Sys2Proof.Machine

@[simp] theorem Memory.read_nil (i : Nat) : Memory.read [] i = none := rfl

@[simp] theorem Memory.read_write_same (m : Memory) (i : Nat) (b : Byte) :
    Memory.read (Memory.write m i b) i = some b := by
  induction m with
  | nil => simp [Memory.write, Memory.read]
  | cons c m ih =>
    obtain ⟨a, c⟩ := c
    simp only [Memory.write]
    split
    · simp [Memory.read]
    · split
      · simp [Memory.read]
      · simp [Memory.read, ih, Ne.symm ‹¬i = a›]

theorem Memory.read_write_other (m : Memory) {i j : Nat} (b : Byte) (h : j ≠ i) :
    Memory.read (Memory.write m i b) j = Memory.read m j := by
  induction m with
  | nil => simp [Memory.write, Memory.read, h.symm]
  | cons c m ih =>
    obtain ⟨a, c⟩ := c
    simp only [Memory.write]
    split
    · simp [Memory.read, h.symm]
    · split
      · simp [Memory.read, ← ‹i = a›, h.symm]
      · simp [Memory.read, ih]

/-- A read after a write, in one equation. -/
theorem Memory.read_write (m : Memory) (i j : Nat) (b : Byte) :
    Memory.read (Memory.write m i b) j = if j = i then some b else Memory.read m j := by
  split
  · subst j; simp
  · exact Memory.read_write_other m b ‹_›

@[simp] theorem bufByte_write (m : Memory) (i j : Nat) (b : Byte) :
    bufByte (Memory.write m i b) j = if j = i then b else bufByte m j := by
  unfold bufByte
  rw [Memory.read_write]
  split <;> simp

@[simp] theorem memReadBlock_get (m : Memory) (i : Nat) (h : i < 64) : (memReadBlock m)[i] = bufByte m i := by
  simp [memReadBlock]

theorem Memory.risingFrom_write (m : Memory) {lo i : Nat} (b : Byte) (hlo : lo ≤ i) (hi : i < 64)
    (h : Memory.risingFrom lo m = true) : Memory.risingFrom lo (Memory.write m i b) = true := by
  induction m generalizing lo with
  | nil => simp [Memory.write, Memory.risingFrom, hlo, hi]
  | cons c m ih =>
    obtain ⟨a, c⟩ := c
    simp only [Memory.risingFrom, Bool.and_eq_true, decide_eq_true_eq] at h
    obtain ⟨⟨hla, ha⟩, hm⟩ := h
    simp only [Memory.write]
    split
    · simp [Memory.risingFrom, hlo, hi, ha, hm, ‹i < a›]
    · split
      · subst a; simp [Memory.risingFrom, hlo, hi, hm]
      · simp [Memory.risingFrom, hla, ha, ih (by omega) hm]

/-- `MemWrite` inside the buffer keeps the canonical form. -/
theorem Memory.wf_write (m : Memory) {i : Nat} (b : Byte) (hi : i < 64) (h : Memory.wf m = true) :
    Memory.wf (Memory.write m i b) = true :=
  Memory.risingFrom_write m b (Nat.zero_le i) hi h

@[simp] theorem Memory.wf_reset : Memory.wf State.reset.BUF = true := rfl

theorem Memory.read_eq_none_of_lt (m : Memory) {lo i : Nat} (h : Memory.risingFrom lo m = true) (hi : i < lo) :
    Memory.read m i = none := by
  induction m generalizing lo with
  | nil => rfl
  | cons c m ih =>
    obtain ⟨a, c⟩ := c
    simp only [Memory.risingFrom, Bool.and_eq_true, decide_eq_true_eq] at h
    obtain ⟨⟨hla, ha⟩, hm⟩ := h
    simp [Memory.read, show a ≠ i by omega, ih hm (by omega)]

/-- Two canonical buffers that read alike everywhere are the same list. -/
theorem Memory.eq_of_read {lo : Nat} {m n : Memory} (hm : Memory.risingFrom lo m = true)
    (hn : Memory.risingFrom lo n = true) (h : ∀ i, Memory.read m i = Memory.read n i) : m = n := by
  induction m generalizing lo n with
  | nil =>
    cases n with
    | nil => rfl
    | cons c n => simpa [Memory.read] using h c.1
  | cons c m ih =>
    obtain ⟨a, x⟩ := c
    cases n with
    | nil => simpa [Memory.read] using h a
    | cons d n =>
      obtain ⟨b, y⟩ := d
      simp only [Memory.risingFrom, Bool.and_eq_true, decide_eq_true_eq] at hm hn
      obtain ⟨⟨_, _⟩, hm⟩ := hm
      obtain ⟨⟨_, _⟩, hn⟩ := hn
      have hab : a = b := by
        by_contra hne
        rcases Nat.lt_or_gt_of_ne hne with hlt | hgt
        · have := h a
          simp [Memory.read, show b ≠ a by omega, Memory.read_eq_none_of_lt n hn (show a < b + 1 by omega)] at this
        · have := h b
          simp [Memory.read, show a ≠ b by omega, Memory.read_eq_none_of_lt m hm (show b < a + 1 by omega)] at this
      subst b
      have hxy : x = y := by simpa [Memory.read] using h a
      subst y
      rw [ih hm hn fun i => ?_]
      by_cases hi : a = i
      · subst i
        rw [Memory.read_eq_none_of_lt m hm (Nat.lt_succ_self a), Memory.read_eq_none_of_lt n hn (Nat.lt_succ_self a)]
      · simpa [Memory.read, hi] using h i

end Sys2Proof.Machine
end

