-- ==== Sys2Proof/Laws/Streaming.lean ====
section
/-!
SUPPORT. What absorb does, field by field (spec/44_streaming_commands.md R181, R182), and everything one command can do.
-/

namespace Sys2Proof.Machine

/-! ## absorb -/

@[simp] theorem absorb_BUF (b : Byte) (s : State) : (absorb b s).BUF = Memory.write s.BUF s.OFFSET.toNat b := by
  unfold absorb; split <;> rfl

@[simp] theorem absorb_COUNT (b : Byte) (s : State) : (absorb b s).COUNT = s.COUNT := by
  unfold absorb; split <;> rfl

@[simp] theorem absorb_FIN (b : Byte) (s : State) : (absorb b s).FIN = s.FIN := by
  unfold absorb; split <;> rfl

@[simp] theorem absorb_rsp (b : Byte) (s : State) : (absorb b s).rsp = s.rsp := by
  unfold absorb; split <;> rfl

@[simp] theorem absorb_port (b : Byte) (s : State) : (absorb b s).port = s.port := by
  unfold absorb; split <;> rfl

@[simp] theorem absorb_OFFSET (b : Byte) (s : State) : (absorb b s).OFFSET = s.OFFSET + 1 := by
  unfold absorb
  split
  · rename_i h; simp [h]
  · rfl

theorem absorb_V (b : Byte) (s : State) :
    (absorb b s).V =
      if s.OFFSET = 63 then CF s.V (memReadBlock (Memory.write s.BUF s.OFFSET.toNat b)) else s.V := by
  unfold absorb; split <;> rfl

theorem offset_succ_toNat (o : BitVec 6) : (o + 1).toNat = (o.toNat + 1) % 64 := by
  simp [BitVec.toNat_add]

/-! ## absorbAll -/

@[simp] theorem absorbAll_nil (s : State) : absorbAll [] s = s := rfl

@[simp] theorem absorbAll_cons (b : Byte) (bs : List Byte) (s : State) :
    absorbAll (b :: bs) s = absorbAll bs (absorb b s) := rfl

theorem absorbAll_append (bs cs : List Byte) (s : State) :
    absorbAll (bs ++ cs) s = absorbAll cs (absorbAll bs s) := by
  simp [absorbAll]

@[simp] theorem absorbAll_COUNT (bs : List Byte) (s : State) : (absorbAll bs s).COUNT = s.COUNT := by
  induction bs generalizing s with
  | nil => rfl
  | cons b bs ih => simp [ih]

@[simp] theorem absorbAll_FIN (bs : List Byte) (s : State) : (absorbAll bs s).FIN = s.FIN := by
  induction bs generalizing s with
  | nil => rfl
  | cons b bs ih => simp [ih]

@[simp] theorem absorbAll_rsp (bs : List Byte) (s : State) : (absorbAll bs s).rsp = s.rsp := by
  induction bs generalizing s with
  | nil => rfl
  | cons b bs ih => simp [ih]

@[simp] theorem absorbAll_port (bs : List Byte) (s : State) : (absorbAll bs s).port = s.port := by
  induction bs generalizing s with
  | nil => rfl
  | cons b bs ih => simp [ih]

theorem absorbAll_OFFSET_toNat (bs : List Byte) (s : State) :
    (absorbAll bs s).OFFSET.toNat = (s.OFFSET.toNat + bs.length) % 64 := by
  induction bs generalizing s with
  | nil => have := s.OFFSET.isLt; simp; omega
  | cons b bs ih => rw [absorbAll_cons, ih, absorb_OFFSET, offset_succ_toNat, List.length_cons]; omega

theorem absorbAll_wf (bs : List Byte) {s : State} (h : Memory.wf s.BUF = true) :
    Memory.wf (absorbAll bs s).BUF = true := by
  induction bs generalizing s with
  | nil => exact h
  | cons b bs ih => exact ih (by rw [absorb_BUF]; exact Memory.wf_write _ _ s.OFFSET.isLt h)

/-! ## The padding -/

theorem zeroCount_eq (o : BitVec 6) : zeroCount o = (119 - o.toNat) % 64 := by
  have := o.isLt
  simp only [zeroCount, BitVec.toNat_sub]
  simp; omega

theorem paddingBytes_length (o : BitVec 6) (c : BitVec 64) : (paddingBytes o c).length = 9 + zeroCount o := by
  simp [paddingBytes]; omega

/-- The padding ends on a block boundary. -/
theorem absorbAll_padding_OFFSET (s : State) (c : BitVec 64) : (absorbAll (paddingBytes s.OFFSET c) s).OFFSET = 0 := by
  apply BitVec.eq_of_toNat_eq
  have := s.OFFSET.isLt
  rw [absorbAll_OFFSET_toNat, paddingBytes_length, zeroCount_eq]
  simp; omega

theorem bitLength_toNat {c : BitVec 64} (h : c.toNat < 2 ^ 61) : (bitLength c).toNat = 8 * c.toNat := by
  simp only [bitLength, BitVec.toNat_mul]
  simp; omega

/-! ## The checks -/

theorem updateCheck_none {s : State} : updateCheck s = none ↔ s.FIN = false ∧ s.COUNT.toNat ≠ 2 ^ 64 - 1 := by
  unfold updateCheck; split <;> [skip; split] <;> simp_all

theorem finalCheck_none {s : State} : finalCheck s = none ↔ s.FIN = false ∧ s.COUNT.toNat < 2 ^ 61 := by
  unfold finalCheck; split <;> [skip; split] <;> simp_all

theorem readDigestCheck_none {s : State} : readDigestCheck s = none ↔ s.FIN = true := by
  unfold readDigestCheck; split <;> simp_all

/-! ## Everything one command can do -/

/-- RESET's new state (R183). -/
theorem exec_reset (s : State) :
    exec .reset s = .next (respond .ack { s with V := IV, OFFSET := 0, COUNT := 0, FIN := false }) := rfl

/-- UPDATE accepted (R184). -/
theorem exec_update_accepted (b : Byte) {s : State} (h : updateCheck s = none) :
    exec (.update b) s = .next (respond .ack (absorb b { s with COUNT := s.COUNT + 1 })) := by
  simp [exec, execUpdate, h]

/-- UPDATE rejected (R184). -/
theorem exec_update_rejected (b : Byte) {s : State} {r : UsageReason} (h : updateCheck s = some r) :
    exec (.update b) s = .next (respond (.usageError r) s) := by
  simp [exec, execUpdate, h, usageError]

/-- FINAL accepted (R185). -/
theorem exec_final_accepted {s : State} (h : finalCheck s = none) :
    exec .final s = .next (respond (.digest (digestBytes (finalize s).V)) (finalize s)) := by
  simp [exec, execFinal, h]

/-- FINAL rejected (R185). -/
theorem exec_final_rejected {s : State} {r : UsageReason} (h : finalCheck s = some r) :
    exec .final s = .next (respond (.usageError r) s) := by
  simp [exec, execFinal, h, usageError]

/-- READ_DIGEST accepted (R188). -/
theorem exec_readDigest_accepted {s : State} (h : s.FIN = true) :
    exec .readDigest s = .next (respond (.digest (digestBytes s.V)) s) := by
  simp [exec, execReadDigest, readDigestCheck, h]

/-- READ_DIGEST rejected (R188). -/
theorem exec_readDigest_rejected {s : State} (h : s.FIN = false) :
    exec .readDigest s = .next (respond (.usageError .notFinalized) s) := by
  simp [exec, execReadDigest, readDigestCheck, h, usageError]

/-- READ_STATUS (R189). -/
theorem exec_readStatus (s : State) : exec .readStatus s = .next (respond (.status (statusWord s)) s) := rfl

/-- READ_COUNT (R190). -/
theorem exec_readCount (s : State) : exec .readCount s = .next (respond (.count s.COUNT) s) := rfl

/-- What a command can do: RESET restores the initial state, an accepted UPDATE counts and absorbs its byte, an accepted FINAL
pads and finalizes, and everything else, errors included, only responds. -/
theorem exec_cases {i : Instr} {s t : State} (h : exec i s = .next t) :
    (i = .reset ∧ t = respond .ack { s with V := IV, OFFSET := 0, COUNT := 0, FIN := false }) ∨
    (∃ b, i = .update b ∧ updateCheck s = none ∧ t = respond .ack (absorb b { s with COUNT := s.COUNT + 1 })) ∨
    (i = .final ∧ finalCheck s = none ∧ t = respond (.digest (digestBytes (finalize s).V)) (finalize s)) ∨
    (∃ r, t = respond r s) := by
  have inj {a b : State} (e : (.next a : Answer) = .next b) : b = a := by cases e; rfl
  cases i with
  | reset => exact .inl ⟨rfl, inj h⟩
  | update b =>
    cases hc : updateCheck s with
    | none => exact .inr (.inl ⟨b, rfl, rfl, inj ((exec_update_accepted b hc).symm.trans h)⟩)
    | some r => exact .inr (.inr (.inr ⟨_, inj ((exec_update_rejected b hc).symm.trans h)⟩))
  | final =>
    cases hc : finalCheck s with
    | none => exact .inr (.inr (.inl ⟨rfl, rfl, inj ((exec_final_accepted hc).symm.trans h)⟩))
    | some r => exact .inr (.inr (.inr ⟨_, inj ((exec_final_rejected hc).symm.trans h)⟩))
  | readDigest =>
    cases hf : s.FIN with
    | true => exact .inr (.inr (.inr ⟨_, inj ((exec_readDigest_accepted hf).symm.trans h)⟩))
    | false => exact .inr (.inr (.inr ⟨_, inj ((exec_readDigest_rejected hf).symm.trans h)⟩))
  | readStatus => exact .inr (.inr (.inr ⟨_, inj h⟩))
  | readCount => exact .inr (.inr (.inr ⟨_, inj h⟩))

end Sys2Proof.Machine
end

