-- ==== Sys2Proof/Laws/Step.lean ====
section
/-!
SUPPORT. What one step does for each thing the host can do in a slot (spec/30_encoding.md R70), and everything a step can do.
-/

namespace Sys2Proof.Machine

theorem step_idle {s : State} (h : s.port = []) : step s = .next s := by
  simp [step, portActivity, h]

theorem step_rst {s : State} {later : List HostEvent} (h : s.port = .rst :: later) :
    step s = .next (powerOnReset { s with port := later }) := by
  simp [step, portActivity, h]

theorem step_take {s : State} {later : List HostEvent} (h : s.port = .take :: later) :
    step s = .next { s with port := later, rsp := none } := by
  simp [step, portActivity, h]

theorem step_command_busy {s : State} {w : CmdWord} {later : List HostEvent} {r : Response}
    (h : s.port = .command w :: later) (hr : s.rsp = some r) : step s = .next { s with port := later } := by
  simp [step, portActivity, h, State.cmdReady, hr]

theorem step_command {s : State} {w : CmdWord} {later : List HostEvent}
    (h : s.port = .command w :: later) (hr : s.rsp = none) : step s = runWord w { s with port := later } := by
  simp [step, portActivity, h, State.cmdReady, hr]

theorem runWord_ok {w : CmdWord} {i : Instr} (h : decode w = .ok i) (s : State) : runWord w s = exec i s := by
  simp [runWord, h]

theorem runWord_error {w : CmdWord} {e : DecodeError} (h : decode w = .error e) (s : State) :
    runWord w s = .next (respond .illegalCommand s) := by
  simp [runWord, h, illegalCommand]

/-- What a step can do: wait, be reset, give up a response, turn a word away, answer an illegal word, or run a command. -/
theorem step_cases {s t : State} (h : step s = .next t) :
    (s.port = [] ∧ t = s) ∨
    (∃ later, s.port = .rst :: later ∧ t = powerOnReset { s with port := later }) ∨
    (∃ later, s.port = .take :: later ∧ t = { s with port := later, rsp := none }) ∨
    (∃ w later, s.port = .command w :: later ∧ s.rsp ≠ none ∧ t = { s with port := later }) ∨
    (∃ w later e, s.port = .command w :: later ∧ s.rsp = none ∧ decode w = .error e ∧
      t = respond .illegalCommand { s with port := later }) ∨
    (∃ w later i, s.port = .command w :: later ∧ s.rsp = none ∧ decode w = .ok i ∧
      exec i { s with port := later } = .next t) := by
  have inj {a b : State} (e : (.next a : Answer) = .next b) : b = a := by cases e; rfl
  cases hp : s.port with
  | nil => exact .inl ⟨rfl, inj ((step_idle hp).symm.trans h)⟩
  | cons e later =>
    cases e with
    | rst => exact .inr (.inl ⟨later, rfl, inj ((step_rst hp).symm.trans h)⟩)
    | take => exact .inr (.inr (.inl ⟨later, rfl, inj ((step_take hp).symm.trans h)⟩))
    | command w =>
      obtain hr | ⟨r, hr⟩ : s.rsp = none ∨ ∃ r, s.rsp = some r := by cases s.rsp <;> simp
      · rw [step_command hp hr] at h
        cases hd : decode w with
        | error e =>
          rw [runWord_error hd] at h
          exact .inr (.inr (.inr (.inr (.inl ⟨w, later, e, rfl, hr, hd, inj h⟩))))
        | ok i =>
          rw [runWord_ok hd] at h
          exact .inr (.inr (.inr (.inr (.inr ⟨w, later, i, rfl, hr, hd, h⟩))))
      · exact .inr (.inr (.inr (.inl ⟨w, later, rfl, by simp [hr], inj ((step_command_busy hp hr).symm.trans h)⟩)))

end Sys2Proof.Machine
end

