-- ==== Sys2Proof/Laws/Message.lean ====
section
/-!
SUPPORT. The streaming engine against the pure digest: what BUF, OFFSET and V are after absorbing a byte sequence from a block
boundary (spec/20_memory.md R52, spec/44_streaming_commands.md R191).
-/

namespace Sys2Proof.Machine

/-- `s` is where the engine stands after absorbing `bs` from chaining state `V₀` with OFFSET 0. -/
structure Absorbed (V₀ : Chain) (bs : List Byte) (s : State) : Prop where
  offset : s.OFFSET.toNat = bs.length % 64
  chain : s.V = compressBlocks V₀ bs (bs.length / 64)
  buffer : ∀ i, i < bs.length % 64 → Memory.read s.BUF i = bs[64 * (bs.length / 64) + i]?

@[simp] theorem blockAt_get (bs : List Byte) (n i : Nat) (h : i < 64) :
    (blockAt bs n)[i] = bs.getD (64 * n + i) 0 := by
  simp [blockAt]

theorem blockAt_append (bs cs : List Byte) {n : Nat} (h : 64 * n + 64 ≤ bs.length) :
    blockAt (bs ++ cs) n = blockAt bs n := by
  apply Vector.ext
  intro i hi
  have : 64 * n + i < bs.length := by omega
  simp [List.getElem?_append_left this]

theorem compressBlocks_append (V₀ : Chain) (bs cs : List Byte) {n : Nat} (h : 64 * n ≤ bs.length) :
    compressBlocks V₀ (bs ++ cs) n = compressBlocks V₀ bs n := by
  induction n with
  | zero => rfl
  | succ n ih => rw [compressBlocks, compressBlocks, ih (by omega), blockAt_append _ _ (by omega)]

theorem Absorbed.start {V₀ : Chain} {s : State} (hV : s.V = V₀) (h : s.OFFSET = 0) : Absorbed V₀ [] s :=
  ⟨by simp [h], hV, fun i hi => by simp at hi⟩

/-- One more byte (R181). -/
theorem Absorbed.absorb {V₀ : Chain} {bs : List Byte} {s : State} (h : Absorbed V₀ bs s) (b : Byte) :
    Absorbed V₀ (bs ++ [b]) (absorb b s) := by
  obtain ⟨ho, hv, hb⟩ := h
  have hfull : s.OFFSET = 63 ↔ bs.length % 64 = 63 := by
    rw [← ho]
    constructor
    · intro h; simp [h]
    · intro h; exact BitVec.eq_of_toNat_eq (by simpa using h)
  refine ⟨?_, ?_, ?_⟩
  · rw [absorb_OFFSET, offset_succ_toNat, ho]; simp
  · rw [absorb_V]
    split
    · rename_i h
      have hl := hfull.1 h
      have hblock : memReadBlock (Memory.write s.BUF s.OFFSET.toNat b) = blockAt (bs ++ [b]) (bs.length / 64) := by
        apply Vector.ext
        intro i hi
        rw [memReadBlock_get, bufByte_write, ho, blockAt_get]
        split
        · have : 64 * (bs.length / 64) + i = bs.length := by omega
          simp [this]
        · have : 64 * (bs.length / 64) + i < bs.length := by omega
          rw [bufByte, hb i (by omega)]
          simp [List.getElem?_append_left this, List.getElem?_eq_getElem this]
      rw [List.length_append, List.length_singleton,
        show (bs.length + 1) / 64 = bs.length / 64 + 1 by omega, compressBlocks,
        compressBlocks_append _ _ _ (by omega), ← hv, hblock]
    · rename_i h
      have hl := (not_congr hfull).1 h
      rw [List.length_append, List.length_singleton, show (bs.length + 1) / 64 = bs.length / 64 by omega,
        compressBlocks_append _ _ _ (by omega), hv]
  · intro i hi
    simp only [List.length_append, List.length_singleton] at hi ⊢
    have hdiv : (bs.length + 1) / 64 = bs.length / 64 := by omega
    rw [absorb_BUF, Memory.read_write, ho, hdiv]
    split
    · have : 64 * (bs.length / 64) + i = bs.length := by omega
      simp [this]
    · have : 64 * (bs.length / 64) + i < bs.length := by omega
      rw [hb i (by omega), List.getElem?_append_left this]

/-- A whole byte sequence. -/
theorem Absorbed.absorbAll {V₀ : Chain} {bs : List Byte} {s : State} (h : Absorbed V₀ bs s) (cs : List Byte) :
    Absorbed V₀ (bs ++ cs) (absorbAll cs s) := by
  induction cs generalizing bs s with
  | nil => simpa using h
  | cons c cs ih => simpa using ih (h.absorb c)

/-- The relation reads neither COUNT nor FIN nor the ports. -/
theorem Absorbed.congr {V₀ : Chain} {bs : List Byte} {s t : State} (h : Absorbed V₀ bs s)
    (hV : t.V = s.V) (hO : t.OFFSET = s.OFFSET) (hB : t.BUF = s.BUF) : Absorbed V₀ bs t :=
  ⟨by rw [hO]; exact h.offset, by rw [hV]; exact h.chain, by rw [hB]; exact h.buffer⟩

/-! ## Command sequences -/

@[simp] theorem execAll_nil (s : State) : execAll [] s = .next s := rfl

theorem execAll_cons {i : Instr} {s t : State} (h : exec i s = .next t) (is : List Instr) :
    execAll (i :: is) s = execAll is t := by
  simp [execAll, h]

theorem execAll_append {is js : List Instr} {s t : State} (h : execAll is s = .next t) :
    execAll (is ++ js) s = execAll js t := by
  induction is generalizing s with
  | nil => cases h; rfl
  | cons i is ih =>
    rw [List.cons_append]
    simp only [execAll] at h ⊢
    split at h
    · exact ih h
    · cases h
    · cases h

/-- UPDATE_BYTES from an accepting engine with room in COUNT: every byte is absorbed and counted. -/
theorem execAll_updateCommands (m : List Byte) {V₀ : Chain} {bs : List Byte} {s : State}
    (hf : s.FIN = false) (hc : s.COUNT.toNat + m.length < 2 ^ 64) (h : Absorbed V₀ bs s) :
    ∃ t, execAll (updateCommands m) s = .next t ∧ Absorbed V₀ (bs ++ m) t ∧ t.FIN = false ∧
      t.COUNT.toNat = s.COUNT.toNat + m.length ∧ t.port = s.port := by
  induction m generalizing bs s with
  | nil => exact ⟨s, rfl, by simpa using h, hf, rfl, rfl⟩
  | cons b m ih =>
    simp only [List.length_cons] at hc
    have hacc : updateCheck s = none := updateCheck_none.2 ⟨hf, by omega⟩
    have hcount : (s.COUNT + 1).toNat = s.COUNT.toNat + 1 := by
      simp [BitVec.toNat_add]; omega
    obtain ⟨t, ht, ha, hft, hct, hpt⟩ := ih
      (s := respond .ack (absorb b { s with COUNT := s.COUNT + 1 })) (bs := bs ++ [b]) (by simpa using hf)
      (by simp; omega)
      (((h.congr rfl rfl rfl : Absorbed V₀ bs { s with COUNT := s.COUNT + 1 }).absorb b).congr rfl rfl rfl)
    refine ⟨t, ?_, by simpa using ha, hft, ?_, by simpa using hpt⟩
    · exact (execAll_cons (exec_update_accepted b hacc) _).trans ht
    · rw [hct, List.length_cons, respond_COUNT, absorb_COUNT, hcount]; omega

end Sys2Proof.Machine
end

