-- ==== Sys2Proof/Laws/Padding.lean ====
section
/-!
SUPPORT. Absorbing a byte sequence inside one block and up to its end, the bytes of the padding one by one, and FINAL's new state
field by field (spec/44_streaming_commands.md R181, R185, R186).
-/

namespace Sys2Proof.Machine

/-- The block compressed when UPDATE fills it: the bytes below 63, then the byte absorbed. -/
theorem memReadBlock_write_last (b : Byte) {s : State} (h : s.OFFSET = 63) :
    memReadBlock (Memory.write s.BUF s.OFFSET.toNat b) =
      Vector.ofFn fun i : Fin 64 => if i.val < 63 then bufByte s.BUF i.val else b := by
  have h63 : s.OFFSET.toNat = 63 := by rw [h]; rfl
  apply Vector.ext
  intro i hi
  rw [memReadBlock_get, bufByte_write, h63, Vector.getElem_ofFn]
  dsimp only
  by_cases hi' : i = 63
  · simp [hi']
  · rw [if_neg hi', if_pos (by omega)]

/-- BUF after absorbing bytes that do not pass the end of the block. -/
theorem absorbAll_read (bs : List Byte) (s : State) (h : s.OFFSET.toNat + bs.length ≤ 64) (j : Nat) :
    Memory.read (absorbAll bs s).BUF j =
      if s.OFFSET.toNat ≤ j ∧ j < s.OFFSET.toNat + bs.length then bs[j - s.OFFSET.toNat]?
      else Memory.read s.BUF j := by
  induction bs generalizing s with
  | nil => rw [absorbAll_nil, if_neg (by simp)]
  | cons b bs ih =>
    simp only [List.length_cons] at h ⊢
    have ho : (absorb b s).OFFSET.toNat = (s.OFFSET.toNat + 1) % 64 := by rw [absorb_OFFSET, offset_succ_toNat]
    rw [absorbAll_cons]
    cases bs with
    | nil =>
      rw [absorbAll_nil, absorb_BUF, Memory.read_write]
      by_cases hj : j = s.OFFSET.toNat
      · simp [hj]
      · rw [if_neg hj, if_neg (by simp; omega)]
    | cons c cs =>
      simp only [List.length_cons] at h
      have ho' : (absorb b s).OFFSET.toNat = s.OFFSET.toNat + 1 := by omega
      rw [ih (absorb b s) (by simp only [List.length_cons]; omega), ho', absorb_BUF, Memory.read_write]
      by_cases hj : j = s.OFFSET.toNat
      · rw [if_neg (by omega), if_pos hj, if_pos (by omega), hj]; simp
      · rw [if_neg hj]
        by_cases hin : s.OFFSET.toNat + 1 ≤ j ∧ j < s.OFFSET.toNat + 1 + (c :: cs).length
        · rw [if_pos hin, if_pos (by omega), show j - s.OFFSET.toNat = (j - (s.OFFSET.toNat + 1)) + 1 by omega,
            List.getElem?_cons_succ]
        · rw [if_neg hin, if_neg (by omega)]

/-- Bytes that do not fill the block leave V alone. -/
theorem absorbAll_V_inside (bs : List Byte) (s : State) (h : s.OFFSET.toNat + bs.length < 64) :
    (absorbAll bs s).V = s.V := by
  induction bs generalizing s with
  | nil => rfl
  | cons b bs ih =>
    simp only [List.length_cons] at h
    have h63 : s.OFFSET ≠ 63 := fun e => by
      have : s.OFFSET.toNat = 63 := by rw [e]; rfl
      omega
    have ho : (absorb b s).OFFSET.toNat = s.OFFSET.toNat + 1 := by rw [absorb_OFFSET, offset_succ_toNat]; omega
    rw [absorbAll_cons, ih _ (by omega), absorb_V, if_neg h63]

/-- Bytes that exactly fill the block compress it once: what BUF held below OFFSET, then the bytes. -/
theorem absorbAll_V_fill (bs : List Byte) (s : State) (h : s.OFFSET.toNat + bs.length = 64) :
    (absorbAll bs s).V = CF s.V (Vector.ofFn fun i : Fin 64 =>
      if i.val < s.OFFSET.toNat then bufByte s.BUF i.val else bs.getD (i.val - s.OFFSET.toNat) 0) := by
  have hlt := s.OFFSET.isLt
  have hne : bs ≠ [] := fun e => by rw [e, List.length_nil] at h; omega
  obtain ⟨cs, c, rfl⟩ : ∃ cs c, bs = cs ++ [c] := ⟨_, _, (List.dropLast_append_getLast hne).symm⟩
  simp only [List.length_append, List.length_singleton] at h
  have ho : (absorbAll cs s).OFFSET = 63 :=
    BitVec.eq_of_toNat_eq (by rw [absorbAll_OFFSET_toNat, show s.OFFSET.toNat + cs.length = 63 by omega]; rfl)
  rw [absorbAll_append, absorbAll_cons, absorbAll_nil, absorb_V, if_pos ho, memReadBlock_write_last _ ho,
    absorbAll_V_inside _ _ (by omega)]
  refine congrArg (CF s.V) (Vector.ext fun i hi => ?_)
  rw [Vector.getElem_ofFn, Vector.getElem_ofFn]
  dsimp only [bufByte]
  rw [absorbAll_read _ _ (by omega)]
  by_cases hi1 : i < s.OFFSET.toNat
  · rw [if_pos (by omega), if_neg (by omega), if_pos hi1]
  · rw [if_neg hi1]
    by_cases hi2 : i < 63
    · have : i - s.OFFSET.toNat < cs.length := by omega
      rw [if_pos hi2, if_pos (by omega)]
      simp [List.getElem?_append_left this, this]
    · rw [if_neg hi2, show i - s.OFFSET.toNat = cs.length by omega]
      simp

theorem bitLength_eq {c : BitVec 64} (h : c.toNat < 2 ^ 61) : bitLength c = BitVec.ofNat 64 (8 * c.toNat) :=
  BitVec.eq_of_toNat_eq (by rw [bitLength_toNat h, BitVec.toNat_ofNat]; omega)

/-- The padding byte by byte. -/
theorem paddingBytes_get (o : BitVec 6) {c : BitVec 64} (h : c.toNat < 2 ^ 61) (j : Nat) :
    (paddingBytes o c)[j]? =
      if j = 0 then some 0x80
      else if j ≤ zeroCount o then some 0x00
      else if h : j - (zeroCount o + 1) < 8 then some (lengthBytes c.toNat)[j - (zeroCount o + 1)]
      else none := by
  unfold paddingBytes lengthBytes
  rw [bitLength_eq h]
  generalize be64 _ = L
  cases j with
  | zero => simp
  | succ j =>
    rw [if_neg (by omega), List.getElem?_cons_succ]
    by_cases hj : j < zeroCount o
    · rw [if_pos (by omega), List.getElem?_append_left (by simpa using hj)]; simp [hj]
    · rw [if_neg (by omega), List.getElem?_append_right (by simpa using hj)]
      simp only [List.length_replicate, Nat.add_sub_add_right]
      split
      · rename_i h8; simp [h8]
      · rename_i h8; simp; omega

/-! ## FINAL's new state -/

theorem finalize_V (s : State) : (finalize s).V = (absorbAll (paddingBytes s.OFFSET s.COUNT) s).V := rfl
theorem finalize_BUF (s : State) : (finalize s).BUF = (absorbAll (paddingBytes s.OFFSET s.COUNT) s).BUF := rfl
@[simp] theorem finalize_OFFSET (s : State) : (finalize s).OFFSET = 0 := absorbAll_padding_OFFSET s s.COUNT
@[simp] theorem finalize_COUNT (s : State) : (finalize s).COUNT = s.COUNT := absorbAll_COUNT _ s
@[simp] theorem finalize_FIN (s : State) : (finalize s).FIN = true := rfl
@[simp] theorem finalize_rsp (s : State) : (finalize s).rsp = s.rsp := absorbAll_rsp _ s
@[simp] theorem finalize_port (s : State) : (finalize s).port = s.port := absorbAll_port _ s

end Sys2Proof.Machine
end

