-- ==== Sys2Proof/Laws/PerInstr.lean ====
section
/-!
SUPPORT. One lemma per command of what its word looks like (spec/30_encoding.md R72): under its row's mask it is its row's
match value.
-/

namespace Sys2Proof.Laws

/-- The encoded word is one of the words of the command's row in the table. -/
def TableRow.Statement (i : Instr) : Prop := encode i &&& i.tableMask = i.tableMatch

theorem TableRow.reset : TableRow.Statement .reset := by unfold TableRow.Statement; decide
theorem TableRow.update (b : Byte) : TableRow.Statement (.update b) := by
  revert b; unfold TableRow.Statement; decide
theorem TableRow.final : TableRow.Statement .final := by unfold TableRow.Statement; decide
theorem TableRow.readDigest : TableRow.Statement .readDigest := by unfold TableRow.Statement; decide
theorem TableRow.readStatus : TableRow.Statement .readStatus := by unfold TableRow.Statement; decide
theorem TableRow.readCount : TableRow.Statement .readCount := by unfold TableRow.Statement; decide

end Sys2Proof.Laws
end

