-- ==== Sys2Proof/Tests/Slice0.lean ====
section
/-!
SUPPORT. The model's own tests: encodings written out from spec/30_encoding.md, the vectors of spec/95_test_vectors.md (whose
values were computed outside this model), ill-formed terms, and for every obligation with hypotheses a concrete state or operand
that meets them.
-/

set_option Elab.async false

namespace Sys2Proof.Tests

open Sys2Proof Sys2Proof.Machine

/-- The next state of an answer, where there is one. -/
def nextOf : Answer → Option State
  | .next s => some s
  | .fault _ => none
  | .refused _ => none

/-- A field of the next state. -/
def after {α : Type} (a : Answer) (f : State → α) : Option α := (nextOf a).map f

/-- The engine with the given OFFSET, COUNT and FIN, the rest as after reset. -/
def at_ (offset : BitVec 6) (count : BitVec 64) (fin : Bool) : State :=
  { State.reset with OFFSET := offset, COUNT := count, FIN := fin }

/-- After UPDATE_BYTES "abc" from reset (95_test_vectors.md V16). -/
def abcState : State :=
  { State.reset with OFFSET := 3, COUNT := 3, BUF := [(0, 0x61), (1, 0x62), (2, 0x63)] }

/-! ## Encodings, written out bit by bit from R71 and R72 -/

theorem test_decode_reset : decode 0b0000000100000000 = .ok .reset := by decide
theorem test_decode_update : decode 0b0000001010100101 = .ok (.update 0b10100101) := by decide
theorem test_decode_final : decode 0b0000001100000000 = .ok .final := by decide
theorem test_decode_readDigest : decode 0b0000010000000000 = .ok .readDigest := by decide
theorem test_decode_readStatus : decode 0b0000010100000000 = .ok .readStatus := by decide
theorem test_decode_readCount : decode 0b0000011000000000 = .ok .readCount := by decide
theorem test_decode_illegal :
    decode 0x0000 = .error .unassignedOpcode ∧ decode 0x0700 = .error .unassignedOpcode ∧
    decode 0x0105 = .error .nonzeroOperand ∧ decode 0x0301 = .error .nonzeroOperand := by decide
theorem test_decodeTableWord :
    decodeTableWord 16 0x0261 = some (.update 0x61) ∧ decodeTableWord 16 0x0300 = some .final ∧
    decodeTableWord 16 0x0000 = none := by decide

/-! ## Well-formedness: one ill-formed term for each check -/

theorem test_wellFormed_instr : Instr.wellFormed (.update 0xFF) = true := by decide
theorem test_illFormed_hex : ByteLit.wellFormed (.hex 0x100) = false := by decide
theorem test_illFormed_dec : ByteLit.wellFormed (.dec 256) = false := by decide
theorem test_illFormed_chr : ByteLit.wellFormed (.chr 'é') = false := by decide
theorem test_illFormed_ascii : BytesLit.wellFormed (.ascii ['a', 'é']) = false := by decide
theorem test_illFormed_hexLength : BytesLit.wellFormed (.hex [6, 1, 6]) = false := by decide
theorem test_illFormed_hexDigit : BytesLit.wellFormed (.hex [6, 16]) = false := by decide
theorem test_illFormed_update : AsmLine.wellFormed (.update (.dec 256)) = false := by decide
theorem test_illFormed_updateBytes : AsmLine.wellFormed (.updateBytes (.hex [1])) = false := by decide
theorem test_illFormed_digestMsg : AsmLine.wellFormed (.digestMsg (.ascii ['é'])) = false := by decide
theorem test_assemble_refuses : assemble (.update (.hex 0x100)) = none := by decide

/-! ## Assembler text (R81, 95_test_vectors.md P1 and section 4) -/

theorem test_asm_update : assembleText "UPDATE 'a'  ; first byte".toList = some [0x0261] := by decide
theorem test_asm_bytes_ascii : assembleText "UPDATE_BYTES \"xyz\"".toList = some [0x0278, 0x0279, 0x027A] := by decide
theorem test_asm_bytes_hex : assembleText "DIGEST_MSG x\"616263\"".toList = some [0x0261, 0x0262, 0x0263, 0x0300] := by
  decide
theorem test_asm_refused : assembleText "RESET 0x00".toList = none := by decide

/-! ## Datapath vectors (95_test_vectors.md sections 2 and 3) -/

theorem test_rotl32 :
    rotl32 0x80000001 1 = 0x00000003 ∧ rotl32 0x12345678 4 = 0x23456781 ∧ rotl32 0x12345678 31 = 0x091A2B3C ∧
    rotl32 0x12345678 32 = 0x12345678 ∧ rotl32 0x12345678 33 = 0x2468ACF0 := by decide
theorem test_add32 : (0xFFFFFFFF : Word) + 1 = 0 := by decide
theorem test_bytesToWordsBE : bytesToWordsBE (m := 1) #v[0x61, 0x62, 0x63, 0x80] = #v[0x61626380] := by decide
theorem test_wordsToBytesBE : wordsToBytesBE #v[(0x66C7F0F4 : Word)] = #v[0x66, 0xC7, 0xF0, 0xF4] := by decide
theorem test_be64 : be64 (8 * 0x1FFFFFFFFFFFFFFF) = #v[0xFF, 0xFF, 0xFF, 0xFF, 0xFF, 0xFF, 0xFF, 0xF8] := by decide
theorem test_FF : FF 0 0x0F0F0F0F 0x00FF00FF 0x3333CCCC = 0x3CC3C33C ∧ FF 16 0x0F0F0F0F 0x00FF00FF 0x3333CCCC = 0x033F0CCF := by
  decide
theorem test_GG : GG 15 0x0F0F0F0F 0x00FF00FF 0x3333CCCC = 0x3CC3C33C ∧ GG 16 0x0F0F0F0F 0x00FF00FF 0x3333CCCC = 0x303FC0CF := by
  decide
theorem test_P0 : P0 0x12345678 = 0xD6688234 := by decide
theorem test_P1 : P1 0x12345678 = 0x05014549 := by decide

/-- The ROM's contents as R123 tabulates them, j = 0..31. -/
def romTableLow : List Word :=
  [0x79CC4519, 0xF3988A32, 0xE7311465, 0xCE6228CB, 0x9CC45197, 0x3988A32F, 0x7311465E, 0xE6228CBC] ++
  [0xCC451979, 0x988A32F3, 0x311465E7, 0x6228CBCE, 0xC451979C, 0x88A32F39, 0x11465E73, 0x228CBCE6] ++
  [0x9D8A7A87, 0x3B14F50F, 0x7629EA1E, 0xEC53D43C, 0xD8A7A879, 0xB14F50F3, 0x629EA1E7, 0xC53D43CE] ++
  [0x8A7A879D, 0x14F50F3B, 0x29EA1E76, 0x53D43CEC, 0xA7A879D8, 0x4F50F3B1, 0x9EA1E762, 0x3D43CEC5]

/-- The ROM's contents as R123 tabulates them, j = 32..63. -/
def romTableHigh : List Word :=
  [0x7A879D8A, 0xF50F3B14, 0xEA1E7629, 0xD43CEC53, 0xA879D8A7, 0x50F3B14F, 0xA1E7629E, 0x43CEC53D] ++
  [0x879D8A7A, 0x0F3B14F5, 0x1E7629EA, 0x3CEC53D4, 0x79D8A7A8, 0xF3B14F50, 0xE7629EA1, 0xCEC53D43] ++
  [0x9D8A7A87, 0x3B14F50F, 0x7629EA1E, 0xEC53D43C, 0xD8A7A879, 0xB14F50F3, 0x629EA1E7, 0xC53D43CE] ++
  [0x8A7A879D, 0x14F50F3B, 0x29EA1E76, 0x53D43CEC, 0xA7A879D8, 0x4F50F3B1, 0x9EA1E762, 0x3D43CEC5]

theorem test_ROM_low : ∀ j : Fin 32, some (ROM ⟨j.val, by omega⟩) = romTableLow[j.val]? := by decide
theorem test_ROM_high : ∀ j : Fin 32, some (ROM ⟨32 + j.val, by omega⟩) = romTableHigh[j.val]? := by decide

/-- The padded block of "abc" (95_test_vectors.md section 3). -/
def abcBlock : Block :=
  (#v[0x61, 0x62, 0x63, 0x80] : Vector Byte 4) ++ (Vector.replicate 59 0 : Vector Byte 59) ++ (#v[0x18] : Vector Byte 1)

theorem test_schedule_abc : (Expand abcBlock).W[16] = 0x9092E200 ∧ (Expand abcBlock).W[67] = 0xB99C0545 ∧
    (Expand abcBlock).W'[15] = 0x719C70F5 ∧ (Expand abcBlock).W'[63] = 0x49E260D5 := by decide +kernel

theorem test_first_round_abc : compressionRound (Expand abcBlock) 0 (loadWorking IV) =
    ⟨0xB9EDC12B, 0x7380166F, 0x29657292, 0x172442D7, 0xB2AD29F4, 0xA96F30BC, 0xC550B189, 0xE38DEE4D⟩ := by decide +kernel

/-- The corner vectors of section 3 with V = 0 and with a block of 0xFF. -/
theorem test_CF_zero : CF (Vector.replicate 8 0) (Vector.replicate 64 0) =
    #v[0x2762550F, 0x18134933, 0xBA35CE4E, 0x0A757E65, 0x8C0E7205, 0xFE9E4FF6, 0x5AC5C88B, 0xA3649AC2] := by decide +kernel
theorem test_CF_ones : CF IV (Vector.replicate 64 0xFF) =
    #v[0xF13F90DE, 0xE115A7DA, 0x7885BFCE, 0xC1EFF734, 0xBA2BEA7C, 0x066E56F6, 0x3BB7F9F7, 0xE01B119F] := by decide +kernel

/-! ## Commands (95_test_vectors.md section 5), each one step -/

/-- V1, from a finalized engine. -/
theorem test_reset : after (exec .reset (at_ 0 64 true)) (fun t => (t.V, t.OFFSET, t.COUNT, t.FIN, t.rsp)) =
    some (IV, 0, 0, false, some .ack) := by decide
/-- V2, through the port. -/
theorem test_update : after (step (State.reset.withFetchWord 16 0x0261)) (fun t => (t.OFFSET, t.COUNT, t.BUF, t.rsp)) =
    some (1, 1, [(0, 0x61)], some .ack) := by decide
/-- V3. -/
theorem test_update_block :
    after (exec (.update 0x3F) { at_ 63 63 false with BUF := (List.range 63).map fun i => (i, BitVec.ofNat 8 i) })
      (fun t => (t.V, t.OFFSET, t.COUNT)) =
    some (#v[0x96A60EC7, 0x1E7EC7A7, 0x890A07DC, 0xBEF2AEA6, 0x9CF8936B, 0xD3F6D07F, 0x47597D30, 0x97DB3CCB], 0, 64) := by
  decide +kernel
/-- The example of R185: "abc", the digest as the port shows it. -/
theorem test_final_abc : after (exec .final abcState) (fun t => (t.rsp.map Response.data, t.FIN, t.OFFSET, t.COUNT)) =
    some (some 0x66c7f0f462eeedd9d1f2d46bdc10e4e24167c4875cf2f7a2297da02b8f4ba8e0, true, 0, 3) := by decide +kernel
/-- V9: the largest message, two compressions. -/
theorem test_final_largest :
    after (exec .final { at_ 63 0x1FFFFFFFFFFFFFFF false with BUF := (List.range 63).map fun i => (i, 0) })
      (fun t => t.rsp.map Response.data) =
    some (some 0x1e9f3dcb2ee7090752380133ca2ce0de4b7a91ab061f8eb41aadb355c99ae9b3) := by decide +kernel
/-- V5, V10, V11. -/
theorem test_update_errors :
    after (exec (.update 0x61) (at_ 0 3 true)) (·.rsp) = some (some (.usageError .updateAfterFinal)) ∧
    after (exec (.update 0x41) (at_ 63 0xFFFFFFFFFFFFFFFF false)) (·.rsp) = some (some (.usageError .countSaturated)) ∧
    after (exec (.update 0x41) (at_ 62 0xFFFFFFFFFFFFFFFE false)) (fun t => (t.OFFSET, t.COUNT)) =
      some (63, 0xFFFFFFFFFFFFFFFF) := by decide
/-- V6, V8, V12. -/
theorem test_final_errors :
    after (exec .final (at_ 0 3 true)) (·.rsp) = some (some (.usageError .finalAfterFinal)) ∧
    after (exec .final (at_ 0 0x2000000000000000 false)) (·.rsp) = some (some (.usageError .lengthLimit)) ∧
    after (exec .final (at_ 0 0x2000000000000000 true)) (·.rsp) = some (some (.usageError .finalAfterFinal)) := by decide
/-- V7 and V20. -/
theorem test_readDigest :
    after (exec .readDigest (at_ 0 0 false)) (·.rsp) = some (some (.usageError .notFinalized)) ∧
    after (exec .readDigest { at_ 0 3 true with V :=
        #v[0x66C7F0F4, 0x62EEEDD9, 0xD1F2D46B, 0xDC10E4E2, 0x4167C487, 0x5CF2F7A2, 0x297DA02B, 0x8F4BA8E0] })
      (fun t => t.rsp.map Response.data) =
      some (some 0x66c7f0f462eeedd9d1f2d46bdc10e4e24167c4875cf2f7a2297da02b8f4ba8e0) := by decide +kernel
/-- V16, V17, V19. -/
theorem test_readStatus :
    after (exec .readStatus abcState) (·.rsp) = some (some (.status 0x00000300)) ∧
    after (exec .readStatus (at_ 0 3 true)) (·.rsp) = some (some (.status 0x00000001)) ∧
    after (exec .readStatus (at_ 56 120 false)) (·.rsp) = some (some (.status 0x00003800)) := by decide
/-- V18. -/
theorem test_readCount : after (exec .readCount (at_ 0 3 true)) (·.rsp) = some (some (.count 3)) := by decide
/-- V13 to V15, in either state. -/
theorem test_illegal_words :
    after (step ((at_ 0 3 true).withFetchWord 16 0x0301)) (·.rsp) = some (some .illegalCommand) ∧
    after (step ((at_ 5 5 false).withFetchWord 16 0x0000)) (·.rsp) = some (some .illegalCommand) := by decide

/-! ## Witnesses: hypotheses that can be met -/

theorem witness_DecodeOfEncode : Instr.wellFormed (.update 0xFF) = true ∧ Instr.wellFormed (.update 0x00) = true := by decide
theorem witness_DecodedWordIsItsEncoding : decode 0x02FF = .ok (.update 0xFF) ∧ decode 0x0600 = .ok .readCount := by decide
theorem witness_LegalWordsAreTheTableRows :
    (0x02FF : CmdWord) &&& 0xFF00 = 0x0200 ∧
    (0x0300 : CmdWord) &&& Instr.tableMask .final = Instr.tableMatch .final ∧
    (0x02FF : CmdWord) &&& Instr.tableMask (.update 7) = Instr.tableMatch (.update 7) := by decide
theorem witness_IllegalWord :
    IllegalWord 0x0000 ∧ IllegalWord 0x00FF ∧ IllegalWord 0x0101 ∧ IllegalWord 0x0301 ∧ IllegalWord 0x06FF ∧
    IllegalWord 0x0700 ∧ IllegalWord 0xFFFF ∧ ¬ IllegalWord 0x0200 ∧ ¬ IllegalWord 0x02FF ∧ ¬ IllegalWord 0x0600 := by decide
theorem witness_ResponseKindsAndTheirCommands :
    ((at_ 62 0xFFFFFFFFFFFFFFFE false).FIN = false ∧ (at_ 62 0xFFFFFFFFFFFFFFFE false).COUNT.toNat < 2 ^ 64 - 1) ∧
    ¬ (at_ 63 0xFFFFFFFFFFFFFFFF false).COUNT.toNat < 2 ^ 64 - 1 ∧
    ((at_ 63 0x1FFFFFFFFFFFFFFF false).FIN = false ∧ (at_ 63 0x1FFFFFFFFFFFFFFF false).COUNT.toNat < 2 ^ 61) ∧
    ¬ (at_ 0 0x2000000000000000 false).COUNT.toNat < 2 ^ 61 ∧ (at_ 0 3 true).FIN = true ∧ IllegalWord 0x0301 := by decide
theorem witness_ResponseDataLayout : (0 < 32 ∧ 31 < 32) ∧ (0 < 8 ∧ 7 < 8) := by decide
theorem witness_RotatorMovesEveryBit : (0 < 32 ∧ 31 < 32) ∧ 0 < 1 % 32 ∧ 0 < 31 % 32 := by decide
theorem witness_DigestByteOrder : (0 < 8 ∧ 7 < 8) ∧ (0 < 4 ∧ 3 < 4) := by decide
theorem witness_ConstantsAndTheirRom : (16 ≤ (16 : Fin 64).val ∧ (16 : Fin 64).val < 32) ∧
    (16 ≤ (31 : Fin 64).val ∧ (31 : Fin 64).val < 32) := by decide
theorem witness_BooleanRoundFunctions : (15 : Fin 64).val ≤ 15 ∧ 16 ≤ (16 : Fin 64).val ∧ 16 ≤ (63 : Fin 64).val := by decide
theorem witness_ScheduleRecurrence : (16 ≤ 16 ∧ 16 < 68) ∧ (16 ≤ 67 ∧ 67 < 68) ∧ 63 < 64 := by decide
/-- Every round has values for its temporaries: the hypotheses are their definitions. -/
theorem witness_RoundIsOneParallelAssignment :
    ∃ SS1 SS2 TT1 TT2 : Word, SS1 = rotl32 (rotl32 0x7380166F 12 + 0xA96F30BC + rotl32 (T 0) (0 % 32)) 7 ∧
      SS2 = SS1 ^^^ rotl32 0x7380166F 12 ∧
      TT1 = FF 0 0x7380166F 0x4914B2B9 0x172442D7 + 0xDA8A0600 + SS2 + (Expand abcBlock).W'[0] ∧
      TT2 = GG 0 0xA96F30BC 0x163138AA 0xE38DEE4D + 0xB0FB0E4E + SS1 + (Expand abcBlock).W[0] :=
  ⟨_, _, _, _, rfl, rfl, rfl, rfl⟩
theorem witness_ResetValues : ({ State.reset with port := [.rst, .take] } : State).port = .rst :: [.take] ∧
    ({ State.reset with port := [.rst] } : State).rsp = none := by decide
theorem witness_AbsorbWritesOneByteAndCompressesAtTheBoundary :
    (at_ 63 63 false).OFFSET = 63 ∧ (at_ 62 62 false).OFFSET ≠ 63 ∧ (0 : Nat) ≠ (at_ 63 63 false).OFFSET.toNat := by decide
theorem witness_UpdateAppendsOneByte :
    ((at_ 63 63 false).FIN = false ∧ (at_ 63 63 false).COUNT.toNat < 2 ^ 64 - 1 ∧ (at_ 63 63 false).OFFSET = 63) ∧
    ((at_ 62 0xFFFFFFFFFFFFFFFE false).FIN = false ∧ (at_ 62 0xFFFFFFFFFFFFFFFE false).COUNT.toNat < 2 ^ 64 - 1 ∧
      (at_ 62 0xFFFFFFFFFFFFFFFE false).OFFSET ≠ 63) ∧
    (at_ 0 3 true).FIN = true ∧
    ((at_ 63 0xFFFFFFFFFFFFFFFF false).FIN = false ∧ (at_ 63 0xFFFFFFFFFFFFFFFF false).COUNT.toNat = 2 ^ 64 - 1) := by decide
theorem witness_BufferHoldsTheMessageTail : ([] : List Byte).length < 2 ^ 64 ∧ ([1, 2, 3] : List Byte).length < 2 ^ 64 := by
  decide
theorem witness_UpdateBytesAfterFinalChangesNothing : (at_ 0 3 true).FIN = true := by decide
theorem witness_FinalPadsAndReturnsTheDigest :
    ((at_ 63 0x1FFFFFFFFFFFFFFF false).FIN = false ∧ (at_ 63 0x1FFFFFFFFFFFFFFF false).COUNT.toNat < 2 ^ 61) ∧
    (at_ 0 3 true).FIN = true ∧
    ((at_ 0 0x2000000000000000 false).FIN = false ∧ 2 ^ 61 ≤ (at_ 0 0x2000000000000000 false).COUNT.toNat) := by decide
theorem witness_FinalCompressesOneBlockUpToOffset55 :
    ((at_ 55 55 false).FIN = false ∧ (at_ 55 55 false).COUNT.toNat < 2 ^ 61 ∧ (at_ 55 55 false).OFFSET.toNat ≤ 55) ∧
    ((0 < (at_ 55 55 false).OFFSET.toNat) ∧ (55 < 64 ∧ (at_ 55 55 false).OFFSET.toNat ≤ 55)) := by decide
theorem witness_FinalCompressesTwoBlocksFromOffset56 :
    ((at_ 56 56 false).FIN = false ∧ (at_ 56 56 false).COUNT.toNat < 2 ^ 61 ∧ 56 ≤ (at_ 56 56 false).OFFSET.toNat) ∧
    56 ≤ (at_ 63 63 false).OFFSET.toNat := by decide
theorem witness_Inv_abc : Inv abcState :=
  ⟨by decide, fun _ => by decide, (nomatch ·), by decide, (nomatch ·)⟩
theorem witness_Inv_finalized : Inv (at_ 0 3 true) :=
  ⟨by decide, (nomatch ·), fun _ => rfl, by decide, fun _ => by decide⟩
theorem witness_PaddingFillsTheBlock :
    ((0 + 1 + 55) % 64 = 56) ∧ Inv abcState ∧ abcState.FIN = false ∧ abcState.COUNT.toNat < 2 ^ 61 :=
  ⟨by decide, witness_Inv_abc, rfl, by decide⟩
theorem witness_ReadDigestSerializesTheChainingState :
    ((at_ 0 3 true).FIN = true ∧ (0 < 8 ∧ 7 < 8) ∧ (0 < 4 ∧ 3 < 4)) ∧ abcState.FIN = false := by decide
theorem witness_ReadStatusShowsFinAndOffset : Inv (at_ 0 3 true) ∧ (at_ 0 3 true).FIN = true :=
  ⟨witness_Inv_finalized, rfl⟩
theorem witness_ReadCountShowsTheMessageLength : abcState.FIN = false ∧ abcState.COUNT.toNat < 2 ^ 61 ∧
    ∃ t, exec .final abcState = .next t := ⟨rfl, by decide, _, rfl⟩
theorem witness_ReadingCommandsHaveNoSideEffects :
    readsOnly .readStatus = true ∧ ∀ j ∈ [Instr.readCount, .readDigest], readsOnly j = true := by decide
theorem witness_DigestStaysReadableUntilReset :
    abcState.FIN = false ∧ abcState.COUNT.toNat < 2 ^ 61 ∧ Instr.reset ∉ [.update 0x61, .final, .readStatus] := by decide
theorem witness_RejectedCommandsChangeNoState :
    after (runWord 0x0400 State.reset) (·.rsp) = some (some (.usageError .notFinalized)) ∧
    after (runWord 0x0105 State.reset) (·.rsp) = some (some .illegalCommand) := by decide
theorem witness_ErrorPriority :
    IllegalWord 0x0301 ∧ (at_ 0 0x2000000000000000 true).FIN = true ∧
    ((at_ 0 0xFFFFFFFFFFFFFFFF false).FIN = false ∧ 2 ^ 61 ≤ (at_ 0 0xFFFFFFFFFFFFFFFF false).COUNT.toNat ∧
      (at_ 0 0xFFFFFFFFFFFFFFFF false).COUNT.toNat = 2 ^ 64 - 1) := by decide
theorem witness_TransitionTable :
    ((at_ 62 0xFFFFFFFFFFFFFFFE false).FIN = false ∧ (at_ 62 0xFFFFFFFFFFFFFFFE false).COUNT.toNat < 2 ^ 64 - 1) ∧
    ((at_ 63 0x1FFFFFFFFFFFFFFF false).FIN = false ∧ (at_ 63 0x1FFFFFFFFFFFFFFF false).COUNT.toNat < 2 ^ 61 ∧
      56 ≤ (at_ 63 0x1FFFFFFFFFFFFFFF false).OFFSET.toNat) ∧
    ((at_ 55 0x1FFFFFFFFFFFFFF7 false).FIN = false ∧ (at_ 55 0x1FFFFFFFFFFFFFF7 false).COUNT.toNat < 2 ^ 61 ∧
      (at_ 55 0x1FFFFFFFFFFFFFF7 false).OFFSET.toNat ≤ 55) ∧
    ((at_ 56 0x1FFFFFFFFFFFFFF8 false).FIN = false ∧ (at_ 56 0x1FFFFFFFFFFFFFF8 false).COUNT.toNat < 2 ^ 61 ∧
      56 ≤ (at_ 56 0x1FFFFFFFFFFFFFF8 false).OFFSET.toNat) ∧
    ((at_ 63 0xFFFFFFFFFFFFFFFF false).FIN = false ∧ (at_ 63 0xFFFFFFFFFFFFFFFF false).COUNT.toNat = 2 ^ 64 - 1) ∧
    ((at_ 0 0x2000000000000000 false).FIN = false ∧ 2 ^ 61 ≤ (at_ 0 0x2000000000000000 false).COUNT.toNat) ∧
    (at_ 0 3 true).FIN = true ∧ IllegalWord 0x0000 ∧ after (exec .reset (at_ 0 3 true)) (·.FIN) = some false := by decide
/-- FINAL and RESET presented on the port change FIN; the step answers. -/
theorem witness_FinChangesOnlyByFinalAndReset :
    after (step (abcState.withFetchWord 16 0x0300)) (·.FIN) = some true ∧
    after (step ((at_ 0 3 true).withFetchWord 16 0x0100)) (·.FIN) = some false ∧
    after (step { at_ 0 3 true with port := [.rst] }) (·.FIN) = some false := by decide
theorem witness_CountCountsAcceptedUpdatesOnly :
    (abcState.FIN = false ∧ abcState.COUNT.toNat < 2 ^ 64 - 1) ∧
    (at_ 0 0xFFFFFFFFFFFFFFFF false).COUNT.toNat = 2 ^ 64 - 1 ∧
    after (step (abcState.withFetchWord 16 0x0264)) (·.COUNT) = some 4 := by decide
theorem witness_ChainingStateIsWrittenOnlyByCompressionAndReset :
    after (step { at_ 0 0 false with V := Vector.replicate 8 0, port := [.rst] })
      (fun t => decide (t.V ≠ Vector.replicate 8 0)) = some true := by decide
theorem witness_OneResponsePerAcceptedCommand :
    (State.reset.withFetchWord 16 0x0500).port = .command 0x0500 :: [] ∧ (State.reset.withFetchWord 16 0x0500).rsp = none ∧
    after (step State.reset) (·.rsp) = some none := by decide
theorem witness_StepRunsTheDecodedCommand :
    (State.reset.withFetchWord 16 0x02FF).port = .command 0x02FF :: [] ∧ (State.reset.withFetchWord 16 0x02FF).rsp = none ∧
    decode 0x02FF = .ok (.update 0xFF) := by decide
theorem witness_PendingResponseHoldsBackCommands :
    (({ State.reset with rsp := some .ack, port := [.command 0x0100] } : State).port = .command 0x0100 :: [] ∧
      ({ State.reset with rsp := some .ack, port := [.command 0x0100] } : State).rsp = some .ack) ∧
    ({ State.reset with rsp := some .ack, port := [.take] } : State).port = .take :: [] ∧
    ({ State.reset with rsp := some .ack, port := [.rst] } : State).port = .rst :: [] ∧ State.reset.port = [] := by decide
theorem witness_InvariantIsKeptByEveryStep :
    Inv abcState ∧ after (step (abcState.withFetchWord 16 0x0264)) (·.BUF.length) = some 4 :=
  ⟨witness_Inv_abc, by decide⟩
theorem witness_BufferStaysCanonical :
    Memory.wf [(0, 0x61), (63, 0x62)] = true ∧ after (step { abcState with port := [.command 0x0264] }) (·.OFFSET) = some 4 := by
  decide
theorem witness_UnwrittenBytesAreUnobservable :
    SameButUnwritten { abcState with port := [.command 0x0300] }
      { abcState with BUF := [(0, 0x61), (1, 0x62), (2, 0x63), (3, 0xEE), (63, 0xFF)], port := [.command 0x0300] } :=
  ⟨rfl, rfl, rfl, rfl, rfl, rfl, by decide⟩
theorem witness_DigestResponseIsTheHashOfTheMessage : ([0x61, 0x62, 0x63] : List Byte).length < 2 ^ 61 := by
  decide +kernel
theorem witness_EmptyMessageDigest : ∀ i ∈ [Instr.readStatus, .reset, .readCount], i = .reset ∨ readsOnly i = true := by decide
theorem witness_ChunkingCannotChangeTheDigest :
    ([[0x61], [], [0x62, 0x63]] : List (List Byte)).flatten.length < 2 ^ 61 := by decide
theorem witness_HostTransactionsRunTheCommandSequence :
    ({ State.reset with port := [.command 0x0261, .take, .command 0x0300, .take, .rst] } : State).rsp = none ∧
    ({ State.reset with port := [.command 0x0261, .take, .command 0x0300, .take, .rst] } : State).port =
      hostScript [.update 0x61, .final] ++ [.rst] := by decide
theorem witness_AssembledWords : ((0 : Nat) ≤ 255 ∧ (255 : Nat) ≤ 255) ∧ ∀ c ∈ ['a', '\n'], c.toNat < 128 := by
  simp

end Sys2Proof.Tests
end

/-!
The obligations on the architectural state between commands (spec/10_state.md): which steps write it, what the two resets
leave, and how READ_STATUS and READ_COUNT show it.
-/

namespace Sys2Proof.Machine

/-! ## Which steps write the architectural state -/

/-- Every way a step can write one of the five architectural items: power-on reset, RESET, an accepted UPDATE, an accepted
FINAL. Any other step, a rejected command and an illegal word included, keeps all five (R20, R232). -/
theorem step_writes {s t : State} (h : step s = .next t) :
    (t.V = s.V ∧ t.BUF = s.BUF ∧ t.OFFSET = s.OFFSET ∧ t.COUNT = s.COUNT ∧ t.FIN = s.FIN) ∨
    (∃ later, s.port = .rst :: later ∧ t = powerOnReset { s with port := later }) ∨
    (∃ w later, s.port = .command w :: later ∧ s.rsp = none ∧
      ((decode w = .ok .reset ∧
          t = respond .ack { s with V := IV, OFFSET := 0, COUNT := 0, FIN := false, port := later }) ∨
        (∃ b, decode w = .ok (.update b) ∧ updateCheck s = none ∧
          t = respond .ack (absorb b { s with COUNT := s.COUNT + 1, port := later })) ∨
        (decode w = .ok .final ∧ finalCheck s = none ∧
          t = respond (.digest (digestBytes (finalize { s with port := later }).V)) (finalize { s with port := later })))) := by
  obtain ⟨-, rfl⟩ | hrst | ⟨later, -, rfl⟩ | ⟨w, later, -, -, rfl⟩ | ⟨w, later, e, -, -, -, rfl⟩ |
    ⟨w, later, i, hp, hr, hd, hx⟩ := step_cases h
  · exact .inl ⟨rfl, rfl, rfl, rfl, rfl⟩
  · exact .inr (.inl hrst)
  · exact .inl ⟨rfl, rfl, rfl, rfl, rfl⟩
  · exact .inl ⟨rfl, rfl, rfl, rfl, rfl⟩
  · exact .inl ⟨rfl, rfl, rfl, rfl, rfl⟩
  · obtain ⟨rfl, ht⟩ | ⟨b, rfl, hc, ht⟩ | ⟨rfl, hc, ht⟩ | ⟨r, rfl⟩ := exec_cases hx
    · exact .inr (.inr ⟨w, later, hp, hr, .inl ⟨hd, ht⟩⟩)
    · exact .inr (.inr ⟨w, later, hp, hr, .inr (.inl ⟨b, hd, hc, ht⟩)⟩)
    · exact .inr (.inr ⟨w, later, hp, hr, .inr (.inr ⟨hd, hc, ht⟩)⟩)
    · exact .inl ⟨rfl, rfl, rfl, rfl, rfl⟩

/-- Settles O42: of the writing steps only FINAL leaves FIN set, and only the two resets leave it clear when it was set, because
an accepted UPDATE starts with FIN clear. -/
theorem finChangesOnlyByFinalAndReset : Obligations.FinChangesOnlyByFinalAndReset := by
  refine ⟨rfl, fun s t h => ?_⟩
  obtain ⟨-, -, -, -, hfin⟩ | ⟨later, hp, rfl⟩ | ⟨w, later, hp, hr, hw⟩ := step_writes h
  · rw [hfin]
    exact ⟨fun hclear hset => absurd hset (by simp [hclear]), fun hset hclear => absurd hclear (by simp [hset])⟩
  · exact ⟨fun _ hset => absurd hset (by simp), fun _ _ => .inl ⟨later, hp⟩⟩
  · obtain ⟨hd, rfl⟩ | ⟨b, -, hc, rfl⟩ | ⟨hd, -, rfl⟩ := hw
    · exact ⟨fun _ hset => absurd hset (by simp), fun _ _ => .inr ⟨w, later, hp, hr, hd⟩⟩
    · obtain ⟨hclear, -⟩ := updateCheck_none.1 hc
      simp [hclear]
    · exact ⟨fun _ _ => ⟨w, later, hp, hr, hd, _, rfl⟩, fun _ hclear => absurd hclear (by simp)⟩

/-- An UPDATE that passes its checks does not carry COUNT past 2^64 - 1 (R24). -/
theorem count_succ_toNat {s : State} (h : updateCheck s = none) : (s.COUNT + 1).toNat = s.COUNT.toNat + 1 := by
  obtain ⟨-, hroom⟩ := updateCheck_none.1 h
  have := s.COUNT.isLt
  exact BitVec.toNat_add_of_lt (by simp; omega)

/-- Settles O43: absorb and the padding leave COUNT alone, so an accepted UPDATE's own increment and the two resets are the only
writes of it. -/
theorem countCountsAcceptedUpdatesOnly : Obligations.CountCountsAcceptedUpdatesOnly := by
  refine ⟨fun b s hf hc => ?_, fun b s hc => ?_, fun s t h => ?_⟩
  · have hacc : updateCheck s = none := updateCheck_none.2 ⟨hf, by omega⟩
    exact ⟨_, exec_update_accepted b hacc, by simpa using count_succ_toNat hacc⟩
  · obtain ⟨r, hrej⟩ : ∃ r, updateCheck s = some r :=
      Option.ne_none_iff_exists'.1 fun hnone => (updateCheck_none.1 hnone).2 hc
    exact ⟨_, r, exec_update_rejected b hrej, rfl, rfl⟩
  · obtain ⟨-, -, -, hcount, -⟩ | ⟨later, hp, rfl⟩ | ⟨w, later, hp, hr, hw⟩ := step_writes h
    · exact .inl hcount
    · exact .inr (.inr ⟨rfl, .inl ⟨later, hp⟩⟩)
    · obtain ⟨hd, rfl⟩ | ⟨b, hd, hc, rfl⟩ | ⟨-, -, rfl⟩ := hw
      · exact .inr (.inr ⟨rfl, .inr ⟨w, later, hp, hr, hd⟩⟩)
      · exact .inr (.inl ⟨by simpa using count_succ_toNat hc, rfl, w, later, b, hp, hr, hd⟩)
      · exact .inl (by simp)

/-! ## Reset -/

/-- Settles O21: both resets write the four values of R38; the rst step empties the response port, RESET keeps BUF. -/
theorem resetValues : Obligations.ResetValues := by
  refine ⟨⟨reset_V, reset_OFFSET, reset_COUNT, reset_FIN⟩, fun s later hp => ?_, fun s => ?_⟩
  · exact ⟨_, step_rst hp, rfl, rfl, rfl, rfl, rfl, fun _ => rfl⟩
  · exact ⟨_, exec_reset s, rfl, rfl, rfl, rfl, rfl⟩

/-! ## The command sequence of a message -/

/-- DIGEST_MSG from an accepting engine with room below FINAL's length limit (R80, R185): the state `u` FINAL starts from has
absorbed and counted every byte of the message. -/
theorem execAll_digestMsg (m : List Byte) {V₀ : Chain} {bs : List Byte} {s : State}
    (hf : s.FIN = false) (hc : s.COUNT.toNat + m.length < 2 ^ 61) (h : Absorbed V₀ bs s) :
    ∃ u, Absorbed V₀ (bs ++ m) u ∧ u.FIN = false ∧ u.COUNT.toNat = s.COUNT.toNat + m.length ∧ u.port = s.port ∧
      execAll (Pseudo.digestMsg m).expand s = .next (respond (.digest (digestBytes (finalize u).V)) (finalize u)) := by
  obtain ⟨u, hu, ha, hfu, hcu, hpu⟩ := execAll_updateCommands m hf (by omega) h
  have hacc : finalCheck u = none := finalCheck_none.2 ⟨hfu, by omega⟩
  exact ⟨u, ha, hfu, hcu, hpu, (execAll_append hu).trans (execAll_cons (exec_final_accepted hacc) [])⟩

/-- The engine right after power-on reset has absorbed nothing. -/
theorem absorbed_reset : Absorbed IV [] State.reset := .start rfl rfl

/-! ## READ_STATUS and READ_COUNT -/

/-- The bits of the status word (R36). -/
theorem statusWord_getLsbD (s : State) (i : Nat) :
    (statusWord s).getLsbD i = ((decide (8 ≤ i) && s.OFFSET.getLsbD (i - 8)) || (decide (i = 0) && s.FIN)) := by
  by_cases hi : i < 32
  · by_cases h8 : 8 ≤ i
    · simp [statusWord, hi, h8, Nat.not_lt.2 h8]
    · simp [statusWord, hi, h8, Nat.lt_of_not_le h8, Bool.and_comm]
  · have hoff : s.OFFSET.getLsbD (i - 8) = false := BitVec.getLsbD_of_ge _ _ (by omega)
    simp [BitVec.getLsbD_of_ge _ _ (Nat.le_of_not_lt hi), hoff, show i ≠ 0 by omega]

/-- Bit 0 of the status word is FIN. -/
theorem statusWord_bit_FIN (s : State) : (statusWord s).extractLsb' 0 1 = BitVec.ofBool s.FIN := by
  apply BitVec.eq_of_getLsbD_eq
  intro i hi
  rw [BitVec.getLsbD_extractLsb', statusWord_getLsbD]
  simp [show i = 0 by omega]

/-- Bits 7:1 of the status word are 0. -/
theorem statusWord_bits_low (s : State) : (statusWord s).extractLsb' 1 7 = 0 := by
  apply BitVec.eq_of_getLsbD_eq
  intro i hi
  simp [statusWord_getLsbD, show ¬ 8 ≤ 1 + i by omega]

/-- Bits 13:8 of the status word are OFFSET. -/
theorem statusWord_bits_OFFSET (s : State) : (statusWord s).extractLsb' 8 6 = s.OFFSET := by
  apply BitVec.eq_of_getLsbD_eq
  intro i hi
  simp [statusWord_getLsbD, hi]

/-- Bits 31:14 of the status word are 0. -/
theorem statusWord_bits_high (s : State) : (statusWord s).extractLsb' 14 18 = 0 := by
  apply BitVec.eq_of_getLsbD_eq
  intro i hi
  have hoff : s.OFFSET.getLsbD (14 + i - 8) = false := BitVec.getLsbD_of_ge _ _ (by omega)
  simp [statusWord_getLsbD, hoff]

/-- In Finalized a state that meets the invariant shows OFFSET 0 and FIN 1 (R189). -/
theorem statusWord_finalized {s : State} (hinv : Inv s) (hset : s.FIN = true) : statusWord s = 0x00000001 := by
  simp [statusWord, hinv.finalized hset, hset]

/-- Settles O33: the fields of the status word, and for the examples what the engine has absorbed when it is read. -/
theorem readStatusShowsFinAndOffset : Obligations.ReadStatusShowsFinAndOffset := by
  refine ⟨by decide, fun s => ?_, ?_, ?_⟩
  · exact ⟨statusWord s, exec_readStatus s, statusWord_bit_FIN s, statusWord_bits_low s, statusWord_bits_OFFSET s,
      statusWord_bits_high s, statusWord_finalized⟩
  · obtain ⟨t, ht, ha, hf, -, -⟩ := execAll_updateCommands [0x61, 0x62, 0x63] reset_FIN (by simp) absorbed_reset
    have hoff : t.OFFSET = 3 := BitVec.eq_of_toNat_eq (by simpa using ha.offset)
    exact ⟨_, (execAll_append ht).trans (execAll_cons (exec_readStatus t) []), by simp [statusWord, hoff, hf]⟩
  · obtain ⟨u, -, -, -, -, hu⟩ := execAll_digestMsg [0x61, 0x62, 0x63] reset_FIN (by simp) absorbed_reset
    exact ⟨_, (execAll_append hu).trans (execAll_cons (exec_readStatus _) []), by simp [statusWord]⟩

/-- Settles O34: FINAL keeps COUNT, which the padding does not change. -/
theorem readCountShowsTheMessageLength : Obligations.ReadCountShowsTheMessageLength := by
  refine ⟨by decide, exec_readCount, fun s t hf hc ht => ?_, ?_⟩
  · cases (exec_final_accepted (finalCheck_none.2 ⟨hf, hc⟩)).symm.trans ht
    exact (exec_readCount _).trans (by simp [respond])
  · obtain ⟨u, -, -, hcu, -, hu⟩ := execAll_digestMsg [0x61, 0x62, 0x63] reset_FIN (by simp) absorbed_reset
    have hcount : u.COUNT = 3 := BitVec.eq_of_toNat_eq (by simpa using hcu)
    exact ⟨_, (execAll_append hu).trans (execAll_cons (exec_readCount _) []), by simp [hcount]⟩

end Sys2Proof.Machine

/-!
The obligations on the layout of multi-byte values (spec/20_memory.md): the digest bytes of the chaining state, the padding's
length field and the message words of a block are all big-endian.
-/

namespace Sys2Proof.Machine

/-! ## The endian converter and the length encoder, byte by byte -/

/-- The bytes of a word sequence: each word's four, its most significant first (R105). -/
@[simp] theorem wordsToBytesBE_getElem {m : Nat} (w : Vector Word m) (n : Nat) (h : n < 4 * m) :
    (wordsToBytesBE w)[n] = byteOfWord (w[n / 4]'(by omega)) (n % 4) := by
  simp [wordsToBytesBE]

/-- The words of a byte sequence: four bytes to each (R104). -/
@[simp] theorem bytesToWordsBE_getElem {m : Nat} (s : Vector Byte (4 * m)) (i : Nat) (h : i < m) :
    (bytesToWordsBE s)[i] = wordOfBytes s[4 * i] s[4 * i + 1] s[4 * i + 2] s[4 * i + 3] := by
  simp [bytesToWordsBE]

/-- The bytes of a 64-bit length (R106). -/
@[simp] theorem be64_getElem (L : BitVec 64) (k : Nat) (h : k < 8) : (be64 L)[k] = L.extractLsb' (56 - 8 * k) 8 := by
  simp [be64]

/-- A big-endian word is its four bytes in a row: bit `i` is a bit of
the byte whose range holds `i`, and every other byte's shift leaves it 0. -/
theorem wordOfBytes_eq_append (b₀ b₁ b₂ b₃ : Byte) : wordOfBytes b₀ b₁ b₂ b₃ = b₀ ++ b₁ ++ b₂ ++ b₃ := by
  apply BitVec.eq_of_getLsbD_eq
  intro i hi
  simp only [wordOfBytes, BitVec.getLsbD_or, BitVec.getLsbD_shiftLeft, BitVec.getLsbD_setWidth, BitVec.getLsbD_append]
  obtain h | h | h | h : i < 8 ∨ 8 ≤ i ∧ i < 16 ∨ 16 ≤ i ∧ i < 24 ∨ 24 ≤ i := by omega
  all_goals grind

/-! ## The digest bytes -/

/-- Settles O11: byte `4i + k` belongs to word `i`, as its byte `k`. -/
theorem digestByteOrder : Obligations.DigestByteOrder := by
  intro V i k hi hk
  have hword : (4 * i + k) / 4 = i := by omega
  have hbyte : (4 * i + k) % 4 = k := by omega
  calc (digestBytes V)[4 * i + k] = byteOfWord V[(4 * i + k) / 4] ((4 * i + k) % 4) :=
        wordsToBytesBE_getElem (m := 8) V _ (by omega)
    _ = byteOfWord V[i] k := by simp only [hword, hbyte]

/-! ## The length field -/

/-- Byte `k` of a 64-bit length, as a number. -/
theorem be64_getElem_toNat (L : BitVec 64) (k : Nat) (h : k < 8) :
    ((be64 L)[k]).toNat = L.toNat / 2 ^ (56 - 8 * k) % 256 := by
  simp [Nat.shiftRight_eq_div_pow]

/-- Reading the first `n` bytes of the length field big-endian gives the length's top `8n` bits. -/
theorem be64_take_foldl (L : BitVec 64) (n : Nat) (h : n ≤ 8) :
    ((be64 L).toList.take n).foldl (fun acc b => 256 * acc + b.toNat) 0 = L.toNat / 2 ^ (64 - 8 * n) := by
  induction n with
  | zero => simp [Nat.div_eq_of_lt L.isLt]
  | succ n ih =>
    have hnext : (be64 L).toList.take (n + 1) = (be64 L).toList.take n ++ [(be64 L)[n]] := by
      simp [List.take_add_one, Nat.lt_of_succ_le h]
    have hpow : 2 ^ (64 - 8 * n) = 2 ^ (56 - 8 * n) * 256 := by
      rw [show 64 - 8 * n = 56 - 8 * n + 8 by omega, Nat.pow_add]
    rw [hnext, List.foldl_append, ih (by omega), List.foldl_cons, List.foldl_nil, be64_getElem_toNat L n h, hpow,
      ← Nat.div_div_eq_div_mul, Nat.div_add_mod, show 64 - 8 * (n + 1) = 56 - 8 * n by omega]

/-- Settles O12: the eight bytes read as one number are the length, by `be64_take_foldl` at all eight. -/
theorem lengthFieldIsBigEndian : Obligations.LengthFieldIsBigEndian := by
  refine ⟨be64_getElem, fun L => ?_, by decide⟩
  have hall : (be64 L).toList.take 8 = (be64 L).toList := List.take_of_length_le (by simp)
  simpa [hall] using be64_take_foldl L 8 (Nat.le_refl 8)

/-! ## The message words -/

/-- A step of the expansion appends a word and keeps those before it. -/
theorem expandWords_succ_getElem (M : Vector Word 16) {n i : Nat} (h : i < 16 + n) :
    (expandWords M (n + 1))[i] = (expandWords M n)[i] :=
  Vector.getElem_push_lt h

/-- The expansion starts with the message words. -/
theorem expandWords_getElem_message (M : Vector Word 16) (n : Nat) {i : Nat} (h : i < 16) :
    (expandWords M n)[i] = M[i] := by
  induction n with
  | zero => rfl
  | succ n ih => rw [expandWords_succ_getElem M (by omega), ih]

/-- Settles O16: the schedule starts with the message words, each its four bytes in a row. -/
theorem messageWordsAreBigEndian : Obligations.MessageWordsAreBigEndian := by
  intro block i hi
  calc (Expand block).W[i] = (messageWords block)[i] := expandWords_getElem_message _ 52 hi
    _ = wordOfBytes block[4 * i] block[4 * i + 1] block[4 * i + 2] block[4 * i + 3] := bytesToWordsBE_getElem (m := 16) block i hi
    _ = block[4 * i] ++ block[4 * i + 1] ++ block[4 * i + 2] ++ block[4 * i + 3] := wordOfBytes_eq_append ..

end Sys2Proof.Machine

/-!
The obligations on the encoding (spec/30_encoding.md): the opcode map, the response kinds and which command gives each, the
reason codes, one response per accepted command, and the layout of the response data.
-/

namespace Sys2Proof

/-! ## The two fields of a command word -/

/-- A word is its two fields side by side (R71). -/
theorem word_eq_append_iff {w : CmdWord} {c d : Byte} : w = c ++ d ↔ opcField w = c ∧ opdField w = d := by
  constructor
  · rintro rfl
    exact ⟨BitVec.extractLsb'_append_eq_left, BitVec.extractLsb'_append_eq_right⟩
  · rintro ⟨rfl, rfl⟩
    exact (BitVec.extractLsb'_append_extractLsb' (w := 8) (len := 8)).symm

/-- OPC as a number. -/
theorem opcField_toNat (w : CmdWord) : (opcField w).toNat = w.toNat / 256 := by
  have := w.isLt
  simp [opcField, Nat.shiftRight_eq_div_pow]
  omega

/-- OPD as a number. -/
theorem opdField_toNat (w : CmdWord) : (opdField w).toNat = w.toNat % 256 := by
  simp [opdField]

/-- Masking a word masks its OPC. -/
theorem opcField_and (w m : CmdWord) : opcField (w &&& m) = opcField w &&& opcField m :=
  BitVec.extractLsb'_and

/-! ## The decoder -/

theorem withZeroOperand_eq_ok_iff {d : Byte} {i j : Instr} : withZeroOperand d i = .ok j ↔ d = 0x00 ∧ i = j := by
  unfold withZeroOperand
  split <;> simp_all

/-- A word decodes to a command exactly when its fields are the command's opcode and operand (R75). -/
theorem decode_eq_ok_iff {w : CmdWord} {i : Instr} :
    decode w = .ok i ↔ opcField w = i.opcode ∧ opdField w = i.operand := by
  constructor
  · intro h
    unfold decode at h
    split_ifs at h with hc hc hc hc hc hc
    · cases h
      exact ⟨hc, rfl⟩
    all_goals
      obtain ⟨hd, rfl⟩ := withZeroOperand_eq_ok_iff.1 h
      exact ⟨hc, hd⟩
  · rintro ⟨hc, hd⟩
    cases i <;> simp_all [decode, withZeroOperand, Instr.opcode, Instr.operand]

/-- A word decodes to a command exactly when it is that command's word. -/
theorem decode_eq_ok_iff_eq_encode {w : CmdWord} {i : Instr} : decode w = .ok i ↔ w = encode i :=
  decode_eq_ok_iff.trans word_eq_append_iff.symm

/-- A word that decodes to a command is none of those R74 lists. -/
theorem not_illegalWord_of_decode {w : CmdWord} {i : Instr} (h : decode w = .ok i) : ¬ Machine.IllegalWord w := by
  obtain ⟨hc, hd⟩ := decode_eq_ok_iff.1 h
  rw [Machine.IllegalWord, ← opcField_toNat, ← opdField_toNat, hc, hd]
  cases i <;> simp [Instr.opcode, Instr.operand]

/-! ## The table's rows -/

/-- A row's match value is the row's opcode over a zero operand. -/
theorem tableMatch_eq_append (i : Instr) : i.tableMatch = i.opcode ++ 0x00#8 := by
  cases i <;> simp [Instr.tableMatch, Instr.opcode]

/-- A word in a command's row has the command's opcode, because every row's mask keeps all of OPC. -/
theorem opcField_of_matches {w : CmdWord} {i : Instr} (h : w &&& i.tableMask = i.tableMatch) : opcField w = i.opcode := by
  have hmask : opcField i.tableMask = BitVec.allOnes 8 := by cases i <;> simp [opcField, Instr.tableMask]
  have hc := congrArg opcField h
  rw [opcField_and, hmask, BitVec.and_allOnes] at hc
  exact hc.trans (word_eq_append_iff.1 (tableMatch_eq_append i)).1

/-- A word in UPDATE's row decodes to UPDATE with the word's operand as its byte. -/
theorem decode_of_matches_update {w : CmdWord} (h : w &&& 0xFF00 = 0x0200) : decode w = .ok (.update (opdField w)) :=
  decode_eq_ok_iff.2 ⟨opcField_of_matches (i := .update 0) h, rfl⟩

/-- The row of UPDATE is its opcode with any operand. -/
theorem and_updateMask_eq_iff (w : CmdWord) : w &&& 0xFF00 = 0x0200 ↔ ∃ b, decode w = .ok (.update b) := by
  refine ⟨fun h => ⟨_, decode_of_matches_update h⟩, fun ⟨b, hb⟩ => ?_⟩
  rw [decode_eq_ok_iff_eq_encode.1 hb]
  exact Laws.TableRow.update b

/-- The row of a command with no operand is the command's one word. -/
theorem and_fullMask_eq_iff (w : CmdWord) (i : Instr) : w &&& 0xFFFF = encode i ↔ decode w = .ok i := by
  rw [decode_eq_ok_iff_eq_encode, show (0xFFFF : CmdWord) = BitVec.allOnes 16 from rfl, BitVec.and_allOnes]

/-- Settles O3: every mask keeps the opcode, and a row's match value is its opcode over zero, so a word is in one row only. -/
theorem legalWordsAreTheTableRows : Obligations.LegalWordsAreTheTableRows := by
  intro w
  refine ⟨and_fullMask_eq_iff w .reset, and_updateMask_eq_iff w, decode_of_matches_update, and_fullMask_eq_iff w .final,
    and_fullMask_eq_iff w .readDigest, and_fullMask_eq_iff w .readStatus, and_fullMask_eq_iff w .readCount,
    fun i j hi hj => ?_⟩
  rw [tableMatch_eq_append, tableMatch_eq_append, ← opcField_of_matches hi, opcField_of_matches hj]

end Sys2Proof

namespace Sys2Proof.Machine

/-! ## The response of a command -/

/-- Every response kind is one of the six of R76. -/
theorem kind_not_reserved (r : Response) : r.kind.toNat < 0x4 ∨ 0xD < r.kind.toNat := by
  cases r <;> simp [Response.kind]

/-- UPDATE answers ACK or a usage error (R184). -/
theorem exec_update_responds (b : Byte) (s : State) :
    ∃ t, exec (.update b) s = .next t ∧
      if s.FIN = false ∧ s.COUNT.toNat < 2 ^ 64 - 1 then t.rsp = some .ack else ∃ u, t.rsp = some (.usageError u) := by
  have hroom : updateCheck s = none ↔ s.FIN = false ∧ s.COUNT.toNat < 2 ^ 64 - 1 := by
    have := s.COUNT.isLt
    rw [updateCheck_none, Nat.lt_iff_le_and_ne, and_iff_right (Nat.le_sub_one_of_lt this)]
  simp only [← hroom]
  cases hc : updateCheck s with
  | none => exact ⟨_, exec_update_accepted b hc, by simp⟩
  | some u => exact ⟨_, exec_update_rejected b hc, by simp⟩

/-- FINAL answers a digest or a usage error (R185). -/
theorem exec_final_responds (s : State) :
    ∃ t, exec .final s = .next t ∧
      if s.FIN = false ∧ s.COUNT.toNat < 2 ^ 61 then ∃ d, t.rsp = some (.digest d)
      else ∃ u, t.rsp = some (.usageError u) := by
  simp only [← finalCheck_none]
  cases hc : finalCheck s with
  | none => exact ⟨_, exec_final_accepted hc, by simp⟩
  | some u => exact ⟨_, exec_final_rejected hc, by simp⟩

/-- READ_DIGEST answers a digest or a usage error (R188). -/
theorem exec_readDigest_responds (s : State) :
    ∃ t, exec .readDigest s = .next t ∧
      if s.FIN = true then ∃ d, t.rsp = some (.digest d) else ∃ u, t.rsp = some (.usageError u) := by
  cases hf : s.FIN with
  | true => exact ⟨_, exec_readDigest_accepted hf, by simp⟩
  | false => exact ⟨_, exec_readDigest_rejected hf, by simp⟩

/-- An illegal word is answered with ILLEGAL_COMMAND and changes no state (R233). -/
theorem runWord_illegalWord {w : CmdWord} (h : IllegalWord w) (s : State) :
    runWord w s = .next (respond .illegalCommand s) := by
  cases hd : decode w with
  | error e => exact runWord_error hd s
  | ok i => exact absurd h (not_illegalWord_of_decode hd)

/-- Settles O6: each command's accepted and rejected cases are its check's two answers. -/
theorem responseKindsAndTheirCommands : Obligations.ResponseKindsAndTheirCommands := by
  refine ⟨⟨rfl, fun _ => rfl, fun _ => rfl, fun _ => rfl, fun _ => rfl, rfl⟩, fun s => ?_, kind_not_reserved⟩
  exact ⟨⟨_, exec_reset s, rfl⟩, fun b => exec_update_responds b s, exec_final_responds s, exec_readDigest_responds s,
    ⟨_, _, exec_readStatus s, rfl⟩, ⟨_, _, exec_readCount s, rfl⟩, fun w hw => ⟨_, runWord_illegalWord hw s, rfl⟩⟩

/-- Settles O8, reason by reason. -/
theorem usageErrorReasonCodes : Obligations.UsageErrorReasonCodes := by
  refine ⟨rfl, rfl, rfl, rfl, rfl, fun u => ?_⟩
  cases u <;> decide

/-! ## One response per command -/

/-- Every command leaves its response on the port and the host's activity alone. -/
theorem exec_responds {i : Instr} {s t : State} (h : exec i s = .next t) : (∃ r, t.rsp = some r) ∧ t.port = s.port := by
  obtain ⟨-, rfl⟩ | ⟨b, -, -, rfl⟩ | ⟨-, -, rfl⟩ | ⟨r, rfl⟩ := exec_cases h <;> simp

/-- Settles O46: of the six things a step can do, only an illegal word's answer and a command's run accept a word, and both
respond. -/
theorem oneResponsePerAcceptedCommand : Obligations.OneResponsePerAcceptedCommand := by
  intro s t h
  obtain ⟨hp, rfl⟩ | ⟨later, hp, rfl⟩ | ⟨later, hp, rfl⟩ | ⟨w, later, hp, hr, rfl⟩ | ⟨w, later, e, hp, hr, -, rfl⟩ |
    ⟨w, later, i, hp, hr, -, hx⟩ := step_cases h
  · simp [hp]
  · simp [hp]
  · simp [hp]
  · simp [hr]
  · simp [hp, hr]
  · obtain ⟨hrsp, hport⟩ := exec_responds hx
    refine ⟨fun w' later' hp' _ => ?_, fun hnone => absurd ⟨w, later, hp, hr⟩ hnone⟩
    obtain ⟨rfl, rfl⟩ : w = w' ∧ later = later' := by simpa [hp] using hp'
    obtain ⟨r, hrsp⟩ := hrsp
    exact ⟨r, hrsp, hport⟩

/-! ## The layout of the response data -/

/-- The data field with one more byte below it: a step of `digestData`. -/
def shiftInByte (acc : BitVec 256) (b : Byte) : BitVec 256 := (acc <<< 8) ||| b.setWidth 256

theorem digestData_eq_foldl (d : Vector Byte 32) : digestData d = d.toList.foldl shiftInByte 0 := rfl

/-- The byte shifted in is the lowest one. -/
theorem shiftInByte_low (acc : BitVec 256) (b : Byte) : (shiftInByte acc b).extractLsb' 0 8 = b := by
  apply BitVec.eq_of_getLsbD_eq
  intro i hi
  simp [shiftInByte, hi, show i < 256 by omega]

/-- Every byte before it moves up by one place, as long as it stays inside the field. -/
theorem shiftInByte_high (acc : BitVec 256) (b : Byte) {k : Nat} (h : k < 31) :
    (shiftInByte acc b).extractLsb' (8 * (k + 1)) 8 = acc.extractLsb' (8 * k) 8 := by
  apply BitVec.eq_of_getLsbD_eq
  intro i hi
  have hb : b.getLsbD (8 * (k + 1) + i) = false := BitVec.getLsbD_of_ge _ _ (by omega)
  simp [shiftInByte, hi, hb, show 8 * (k + 1) + i < 256 by omega, show ¬ 8 * (k + 1) + i < 8 by omega,
    show 8 * (k + 1) + i - 8 = 8 * k + i by omega, show 8 * k + i < 256 by omega]

/-- After shifting in a byte sequence that fits, its last byte is the lowest and its first the highest. -/
theorem foldl_shiftInByte_extractLsb' (bs : List Byte) (hlen : bs.length ≤ 32) {n : Nat} (h : n < bs.length) :
    (bs.foldl shiftInByte 0).extractLsb' (8 * (bs.length - 1 - n)) 8 = bs[n] := by
  induction bs using List.reverseRecOn generalizing n with
  | nil => simp at h
  | append_singleton bs b ih =>
    rw [List.length_append, List.length_singleton] at hlen h
    simp only [List.foldl_append, List.foldl_cons, List.foldl_nil, List.length_append, List.length_singleton]
    by_cases hn : n = bs.length
    · subst n
      simpa using shiftInByte_low _ b
    · have hlt : n < bs.length := by omega
      rw [List.getElem_append_left hlt, show bs.length + 1 - 1 - n = bs.length - 1 - n + 1 by omega,
        shiftInByte_high _ _ (by omega), ih (by omega) hlt]

/-- Digest byte `n` stands in bits `255-8n : 248-8n` (R77). -/
theorem digestData_byte (d : Vector Byte 32) {n : Nat} (h : n < 32) : (digestData d).extractLsb' (248 - 8 * n) 8 = d[n] := by
  have hbyte := foldl_shiftInByte_extractLsb' d.toList (by simp) (n := n) (by simpa using h)
  rw [digestData_eq_foldl, show 248 - 8 * n = 8 * (d.toList.length - 1 - n) by simp; omega, hbyte]
  simp

/-- Two words with the same four bytes are the same. -/
theorem word_eq_of_bytes {x y : Word} (h : ∀ k < 4, byteOfWord x k = byteOfWord y k) : x = y := by
  apply BitVec.eq_of_getLsbD_eq
  intro i hi
  have hbyte := congrArg (BitVec.getLsbD · (i % 8)) (h (3 - i / 8) (by omega))
  simpa [byteOfWord, show i % 8 < 8 by omega, show 24 - 8 * (3 - i / 8) + i % 8 = i by omega] using hbyte

/-- Byte `k` of the 32 bits at `start`. -/
theorem byteOfWord_extractLsb' {x : BitVec 256} {start k : Nat} (h : k < 4) :
    byteOfWord (x.extractLsb' start 32) k = x.extractLsb' (start + (24 - 8 * k)) 8 := by
  apply BitVec.eq_of_getLsbD_eq
  intro i hi
  simp [byteOfWord, hi, show 24 - 8 * k + i < 32 by omega, Nat.add_assoc]

/-- `V[i]` of a serialized chaining state stands in bits `255-32i : 224-32i` (R77): each of its bytes does. -/
theorem digestData_word (V : Chain) {i : Nat} (h : i < 8) :
    (digestData (digestBytes V)).extractLsb' (224 - 32 * i) 32 = V[i] := by
  refine word_eq_of_bytes fun k hk => ?_
  rw [byteOfWord_extractLsb' hk, show 224 - 32 * i + (24 - 8 * k) = 248 - 8 * (4 * i + k) by omega,
    digestData_byte _ (by omega)]
  exact digestByteOrder V i k h hk

/-- A value narrower than the data field fills its low bits and leaves the rest 0. -/
theorem setWidth_data_layout {n m : Nat} (x : BitVec n) (h : n + m = 256) :
    (x.setWidth 256).extractLsb' 0 n = x ∧ (x.setWidth 256).extractLsb' n m = 0 := by
  constructor
  · rw [BitVec.extractLsb'_setWidth_of_le (by omega), BitVec.extractLsb'_eq_self]
  · apply BitVec.eq_of_getLsbD_eq
    intro i hi
    simp

/-- Settles O7: the digest byte by byte and word by word, and the narrower values in the low bits. -/
theorem responseDataLayout : Obligations.ResponseDataLayout :=
  ⟨rfl, rfl, fun d _ hn => digestData_byte d hn, fun V _ hi => digestData_word V hi,
    fun w => setWidth_data_layout w rfl, fun n => setWidth_data_layout n rfl,
    fun u => setWidth_data_layout u.code rfl⟩

end Sys2Proof.Machine

/-!
The obligation on the word rotator (spec/40_word_primitives.md): it is the library's left rotation, so each bit moves up by the
amount, cyclically.
-/

namespace Sys2Proof.Machine

/-! ## The word rotator, bit by bit -/

/-- The rotator is the library's left rotation: the or of its two shifts is `x` at amount 0 too, where the right shift leaves
nothing. -/
theorem rotl32_eq_rotateLeft (x : Word) (n : Nat) : rotl32 x n = x.rotateLeft n := by
  rw [BitVec.rotateLeft_def, rotl32]
  split
  · next h => simp [h, BitVec.ushiftRight_eq_zero]
  · rfl

/-- Bit `i` of a rotated word is bit `(i - n) mod 32` of the word (R101): the `n mod 32` low bits come from the top, the others
from `n mod 32` places below. -/
theorem rotl32_getLsbD (x : Word) (n : Nat) {i : Nat} (hi : i < 32) :
    (rotl32 x n).getLsbD i = x.getLsbD ((i + (32 - n % 32)) % 32) := by
  rw [rotl32_eq_rotateLeft, BitVec.getLsbD_rotateLeft]
  by_cases h : i < n % 32
  · simp [h, show (i + (32 - n % 32)) % 32 = 32 - n % 32 + i by omega]
  · simp [h, hi, show (i + (32 - n % 32)) % 32 = i - n % 32 by omega]

/-- At an amount that is not 0 modulo 32 the rotator is the or of its two shifts (R101). -/
theorem rotl32_eq_or_shifts (x : Word) {n : Nat} (h : 0 < n % 32) :
    rotl32 x n = (x <<< (n % 32)) ||| (x >>> (32 - n % 32)) :=
  if_neg h.ne'

/-- The amount counts modulo 32 (R102). -/
theorem rotl32_mod (x : Word) (n : Nat) : rotl32 x n = rotl32 x (n % 32) := by
  simp only [rotl32_eq_rotateLeft, BitVec.rotateLeft_mod_eq_rotateLeft]

/-- Adding `k` modulo `m` to the numbers below `m` rotates their list, so a count over the sums is the count over the numbers. -/
theorem countP_range_add_mod (p : Nat → Bool) (k m : Nat) :
    (List.range m).countP (fun i => p ((i + k) % m)) = (List.range m).countP p := by
  have hrotate : (List.range m).rotate k = (List.range m).map (fun i => (i + k) % m) := by
    apply List.ext_getElem <;> simp [List.getElem_rotate]
  rw [← (List.rotate_perm (List.range m) k).countP_eq p, hrotate, List.countP_map]
  rfl

/-- A rotation keeps the number of 1 bits. -/
theorem rotl32_popcount (x : Word) (n : Nat) :
    (List.range 32).countP (fun i => (rotl32 x n).getLsbD i) = (List.range 32).countP (fun i => x.getLsbD i) := by
  calc (List.range 32).countP (fun i => (rotl32 x n).getLsbD i)
      = (List.range 32).countP (fun i => x.getLsbD ((i + (32 - n % 32)) % 32)) :=
        List.countP_congr fun i hi => by rw [rotl32_getLsbD x n (List.mem_range.mp hi)]
    _ = (List.range 32).countP (fun i => x.getLsbD i) := countP_range_add_mod x.getLsbD _ 32

/-- A word whose bits are all equal is fixed by every rotation. -/
theorem rotl32_of_bits_eq {x : Word} {b : Bool} (hx : ∀ i < 32, x.getLsbD i = b) (n : Nat) : rotl32 x n = x := by
  apply BitVec.eq_of_getLsbD_eq
  intro i hi
  rw [rotl32_getLsbD x n hi, hx i hi, hx _ (Nat.mod_lt _ (by decide))]

/-- Settles O9: the rule for one bit gives the count of 1 bits and the two fixed words; the rest is the rotator's formula and
its masked amount. -/
theorem rotatorMovesEveryBit : Obligations.RotatorMovesEveryBit :=
  ⟨fun x n _ hi => rotl32_getLsbD x n hi, fun x _ h => rotl32_eq_or_shifts x h, rotl32_mod, fun _ => rfl, rotl32_popcount,
    fun n => ⟨rotl32_of_bits_eq (b := false) (by decide) n, rotl32_of_bits_eq (b := true) (by decide) n⟩, by decide⟩

end Sys2Proof.Machine

/-!
The obligations on the constants, the boolean round functions and the permutations (spec/41_constants_round_functions.md): the
selector splits the round indices at 16, so each of T, FF and GG has an equation below and one from that boundary on; the
permutations inherit linearity from the rotator.
-/

namespace Sys2Proof.Machine

/-! ## The selector and what switches on it -/

theorem sel_early {j : Fin 64} (h : j.val ≤ 15) : sel j = false := by
  simp only [sel, decide_eq_false_iff_not]
  omega

theorem sel_late {j : Fin 64} (h : 16 ≤ j.val) : sel j = true :=
  decide_eq_true h

theorem T_early {j : Fin 64} (h : j.val ≤ 15) : T j = 0x79CC4519 := by
  simp [T, sel_early h]

theorem T_late {j : Fin 64} (h : 16 ≤ j.val) : T j = 0x7A879D8A := by
  simp [T, sel_late h]

theorem FF_early {j : Fin 64} (h : j.val ≤ 15) (X Y Z : Word) : FF j X Y Z = X ^^^ Y ^^^ Z := by
  simp [FF, sel_early h]

theorem FF_late {j : Fin 64} (h : 16 ≤ j.val) (X Y Z : Word) : FF j X Y Z = (X &&& Y) ||| (X &&& Z) ||| (Y &&& Z) := by
  simp [FF, sel_late h]

theorem GG_early {j : Fin 64} (h : j.val ≤ 15) (X Y Z : Word) : GG j X Y Z = X ^^^ Y ^^^ Z := by
  simp [GG, sel_early h]

theorem GG_late {j : Fin 64} (h : 16 ≤ j.val) (X Y Z : Word) : GG j X Y Z = (X &&& Y) ||| (~~~X &&& Z) := by
  simp [GG, sel_late h]

/-! ## The boolean round functions -/

/-- From index 16 on GG is the bitwise choice (R125). -/
theorem GG_late_getLsbD {j : Fin 64} (h : 16 ≤ j.val) (X Y Z : Word) {i : Nat} (hi : i < 32) :
    (GG j X Y Z).getLsbD i = if X.getLsbD i then Y.getLsbD i else Z.getLsbD i := by
  rw [GG_late h, BitVec.getLsbD_or, BitVec.getLsbD_and, BitVec.getLsbD_and, BitVec.getLsbD_not]
  cases X.getLsbD i <;> simp [hi]

/-- Two equal words have the majority whatever the third is (R124). -/
theorem FF_late_self {j : Fin 64} (h : 16 ≤ j.val) (X Z : Word) : FF j X X Z = X := by
  rw [FF_late h]
  apply BitVec.eq_of_getLsbD_eq
  intro i _
  rw [BitVec.getLsbD_or, BitVec.getLsbD_or, BitVec.getLsbD_and, BitVec.getLsbD_and]
  cases X.getLsbD i <;> simp

/-- Two equal words cancel in the parity (R124). -/
theorem FF_early_self {j : Fin 64} (h : j.val ≤ 15) (X Z : Word) : FF j X X Z = Z := by
  rw [FF_early h, BitVec.xor_self, BitVec.zero_xor]

theorem GG_late_ones {j : Fin 64} (h : 16 ≤ j.val) (Y Z : Word) : GG j 0xFFFFFFFF Y Z = Y := by
  rw [GG_late h, show (0xFFFFFFFF : Word) = BitVec.allOnes 32 from rfl, BitVec.allOnes_and, BitVec.not_allOnes,
    BitVec.zero_and, BitVec.or_zero]

theorem GG_late_zero {j : Fin 64} (h : 16 ≤ j.val) (Y Z : Word) : GG j 0 Y Z = Z := by
  rw [GG_late h, BitVec.ofNat_eq_ofNat, BitVec.zero_and, BitVec.zero_or, BitVec.not_zero, BitVec.allOnes_and]

/-- Settles O14: below index 16 both functions are the parity, from there on the majority and the choice; each corner case is
one of those equations at equal or constant words. -/
theorem booleanRoundFunctions : Obligations.BooleanRoundFunctions := by
  refine ⟨fun j X Y Z h => ⟨FF_early h X Y Z, GG_early h X Y Z⟩, fun j X Y Z h => ⟨FF_late h X Y Z, GG_late h X Y Z⟩,
    fun j X Y Z i h hi => GG_late_getLsbD h X Y Z hi, fun j X Z => ?_,
    fun j Y Z h => ⟨GG_late_ones h Y Z, GG_late_zero h Y Z⟩, by decide⟩
  split
  · next h => exact FF_late_self h X Z
  · next h => exact FF_early_self (by omega) X Z

/-! ## The permutations -/

/-- A rotation moves bits and combines none, so it distributes over xor. -/
theorem rotl32_xor (X Y : Word) (n : Nat) : rotl32 (X ^^^ Y) n = rotl32 X n ^^^ rotl32 Y n := by
  apply BitVec.eq_of_getLsbD_eq
  intro i hi
  simp only [BitVec.getLsbD_xor, rotl32_getLsbD _ n hi]

theorem P0_xor (X Y : Word) : P0 (X ^^^ Y) = P0 X ^^^ P0 Y := by
  simp only [P0, rotl32_xor]
  ac_rfl

theorem P1_xor (X Y : Word) : P1 (X ^^^ Y) = P1 X ^^^ P1 Y := by
  simp only [P1, rotl32_xor]
  ac_rfl

/-- Settles O15: the permutations are linear because the rotator is; the formulas are the definitions, and the fixed words and
the examples are evaluated. -/
theorem permutationsAreLinear : Obligations.PermutationsAreLinear :=
  ⟨fun _ => ⟨rfl, rfl⟩, fun X Y => ⟨P0_xor X Y, P1_xor X Y⟩, by decide⟩

/-! ## The round constants and their ROM -/

/-- From index 16 on T is constant, and 32 more rounds rotate it by the same amount: the ROM repeats (R123). -/
theorem ROM_add_32 {j : Fin 64} (h16 : 16 ≤ j.val) (h32 : j.val < 32) : ROM (j + 32) = ROM j := by
  have hval : (j + 32).val = j.val + 32 := by
    rw [Fin.val_add, show (32 : Fin 64).val = 32 from rfl]
    omega
  rw [ROM, ROM, T_late h16, T_late (by omega), hval, Nat.add_mod_right]

/-- Settles O13: T has one value on each side of the selector's boundary, the ROM at 0 and 32 is evaluated, and the ROM repeats
after 32 rounds from index 16. -/
theorem constantsAndTheirRom : Obligations.ConstantsAndTheirRom := by
  refine ⟨rfl, fun j => ?_, fun _ => rfl, by decide, by decide, by decide, fun _ h16 h32 => ROM_add_32 h16 h32⟩
  split
  · next h => exact T_early h
  · next h => exact T_late (by omega)

end Sys2Proof.Machine

/-!
The obligation on the message scheduler (spec/42_message_scheduler.md): a word, once appended, stays in every longer prefix of the
expansion, so the recurrence that built it from an earlier prefix holds within the finished schedule.
-/

namespace Sys2Proof.Machine

/-! ## The words of the expansion -/

/-- Later steps of the expansion keep the words of an earlier one. -/
theorem expandWords_getElem_of_le (M : Vector Word 16) {n m i : Nat} (hnm : n ≤ m) (hi : i < 16 + n) :
    (expandWords M m)[i] = (expandWords M n)[i] := by
  induction m, hnm using Nat.le_induction with
  | base => rfl
  | succ m _ ih => rw [expandWords_succ_getElem M (by omega), ih]

/-- The word a step appends is the recurrence's right side on the words before it. -/
theorem expandWords_succ_getElem_last (M : Vector Word 16) (n : Nat) :
    (expandWords M (n + 1))[16 + n] = nextWord (expandWords M n) :=
  Vector.getElem_push_eq

/-- The recurrence within one expansion of any length: the five words read have not changed since (R142, R144). -/
theorem expandWords_recurrence (M : Vector Word 16) {n m : Nat} (h : n < m) :
    (expandWords M m)[16 + n] =
      P1 ((expandWords M m)[n] ^^^ (expandWords M m)[n + 7] ^^^ rotl32 (expandWords M m)[n + 13] 15) ^^^
        rotl32 (expandWords M m)[n + 3] 7 ^^^ (expandWords M m)[n + 10] := by
  have hkeep {i : Nat} (hi : i < 16 + n) : (expandWords M m)[i] = (expandWords M n)[i] :=
    expandWords_getElem_of_le M (Nat.le_of_lt h) hi
  calc (expandWords M m)[16 + n]
      = (expandWords M (n + 1))[16 + n] := expandWords_getElem_of_le M h (Nat.lt_succ_self _)
    _ = nextWord (expandWords M n) := expandWords_succ_getElem_last M n
    _ = _ := by rw [nextWord, hkeep, hkeep, hkeep, hkeep, hkeep]

/-- The same recurrence with the document's indices, counted back from the word `j` it gives. -/
theorem Expand_W_recurrence (block : Block) {j : Nat} (h16 : 16 ≤ j) (h68 : j < 68) :
    (Expand block).W[j] =
      P1 ((Expand block).W[j - 16] ^^^ (Expand block).W[j - 9] ^^^ rotl32 (Expand block).W[j - 3] 15) ^^^
        rotl32 (Expand block).W[j - 13] 7 ^^^ (Expand block).W[j - 6] := by
  obtain ⟨n, rfl⟩ := Nat.exists_eq_add_of_le h16
  simp only [show 16 + n - 16 = n by omega, show 16 + n - 9 = n + 7 by omega, show 16 + n - 3 = n + 13 by omega,
    show 16 + n - 13 = n + 3 by omega, show 16 + n - 6 = n + 10 by omega]
  exact expandWords_recurrence (messageWords block) (m := 52) (by omega)

/-- A derived word is the xor of two schedule words four apart (R143). -/
theorem derivedWords_getElem (W : Vector Word 68) {j : Nat} (h : j < 64) : (derivedWords W)[j] = W[j] ^^^ W[j + 4] :=
  Vector.getElem_ofFn h

/-- Settles O17: every word from 16 on obeys the recurrence over the finished schedule, and the derived words are read off it. -/
theorem scheduleRecurrence : Obligations.ScheduleRecurrence :=
  fun block => ⟨fun _ h16 h68 => Expand_W_recurrence block h16 h68, fun _ h => derivedWords_getElem (Expand block).W h⟩

end Sys2Proof.Machine

/-!
The obligations on the compression (spec/43_compression.md): one round is the rule's assignment read off the definition, and the
register values of a compression are the prefixes of its run of rounds.
-/

namespace Sys2Proof.Machine

/-! ## One round -/

/-- Settles O18: the round's temporaries are the rule's, the ROM's entry being the rotated round constant. -/
theorem roundIsOneParallelAssignment : Obligations.RoundIsOneParallelAssignment := by
  rintro sch j A B C D E F G H _ _ _ _ rfl rfl rfl rfl
  simp only [compressionRound, roundTT1, roundTT2, roundSS2, roundSS1, ROM]

/-! ## The run of rounds -/

/-- Before the first round the registers are the loaded ones. -/
theorem rounds_zero (sch : Schedule) (r : Working) (h : 0 ≤ 64) : rounds sch r 0 h = r := rfl

/-- Round `n` reads the registers that rounds `0..n-1` left (R164). -/
theorem rounds_succ (sch : Schedule) (r : Working) {n : Nat} (h : n + 1 ≤ 64) :
    rounds sch r (n + 1) h = compressionRound sch ⟨n, h⟩ (rounds sch r n (Nat.le_of_succ_le h)) := rfl

/-- The feed-forward pairs `V[0..7]` with the registers A..H (R165). -/
theorem feedForward_toChain (V : Chain) (r : Working) :
    feedForward V r.toChain = #v[V[0] ^^^ r.A, V[1] ^^^ r.B, V[2] ^^^ r.C, V[3] ^^^ r.D,
      V[4] ^^^ r.E, V[5] ^^^ r.F, V[6] ^^^ r.G, V[7] ^^^ r.H] := rfl

/-- Settles O19: the register value at index `n` is what rounds `0..n-1` leave of the loaded registers. -/
theorem compressionRunsRoundsInOrder : Obligations.CompressionRunsRoundsInOrder := by
  intro V block
  refine ⟨fun n => rounds (Expand block) (loadWorking V) n.val (Nat.le_of_lt_succ n.isLt), ?_, fun j => ?_, ?_⟩
  · exact rounds_zero _ _ _
  · exact rounds_succ _ _ j.isLt
  · exact feedForward_toChain V _

end Sys2Proof.Machine

/-!
The obligations on the streaming commands (spec/44_streaming_commands.md): absorb at and off the block boundary, each command's
accepted and rejected cases, the transition table they make up, and the digests of two known messages.
-/

namespace Sys2Proof.Machine

/-! ## absorb and UPDATE -/

theorem offset_succ_toNat_of_ne {o : BitVec 6} (h : o ≠ 63) : (o + 1).toNat = o.toNat + 1 := by
  have hne : o.toNat ≠ 63 := fun e => h (BitVec.eq_of_toNat_eq e)
  have := o.isLt
  rw [offset_succ_toNat]
  omega

theorem absorb_V_inside (b : Byte) {s : State} (h : s.OFFSET ≠ 63) : (absorb b s).V = s.V := by
  rw [absorb_V, if_neg h]

theorem absorb_V_boundary (b : Byte) {s : State} (h : s.OFFSET = 63) :
    (absorb b s).V = CF s.V (Vector.ofFn fun i : Fin 64 => if i.val < 63 then bufByte s.BUF i.val else b) := by
  rw [absorb_V, if_pos h, memReadBlock_write_last b h]

/-- Settles O24: absorb writes one byte, and whether it compresses is OFFSET's test alone. -/
theorem absorbWritesOneByteAndCompressesAtTheBoundary :
    Obligations.AbsorbWritesOneByteAndCompressesAtTheBoundary := by
  intro b s
  refine ⟨?_, fun i hi => ?_, fun h => ⟨?_, absorb_V_inside b h⟩, fun h => ⟨?_, absorb_V_boundary b h⟩,
    absorb_COUNT b s, absorb_FIN b s, absorb_rsp b s, absorb_port b s⟩
  · rw [absorb_BUF, Memory.read_write_same]
  · rw [absorb_BUF, Memory.read_write_other _ b hi]
  · rw [absorb_OFFSET, offset_succ_toNat_of_ne h]
  · rw [absorb_OFFSET, h]
    rfl

/-- The word of UPDATE b (R81). -/
theorem encode_update (b : Byte) : encode (.update b) = 0x0200 ||| b.setWidth 16 := by
  rw [encode, BitVec.append_def, BitVec.shiftLeftZeroExtend_eq, BitVec.setWidth'_eq]
  rfl

/-- COUNT at its end rejects UPDATE (R184). -/
theorem updateCheck_saturated {s : State} (hf : s.FIN = false) (hc : s.COUNT.toNat = 2 ^ 64 - 1) :
    updateCheck s = some .countSaturated := by
  simp [updateCheck, hf, hc]

theorem updateCheck_finalized {s : State} (hf : s.FIN = true) : updateCheck s = some .updateAfterFinal := by
  simp [updateCheck, hf]

/-- A block is the first block of its own bytes. -/
theorem blockAt_toList (block : Block) : blockAt block.toList 0 = block := by
  apply Vector.ext
  intro i hi
  simp [hi]

/-- The 64 UPDATEs of a block from reset compress it, once (R184). -/
theorem updateCommands_block (block : Block) :
    ∃ t, execAll (updateCommands block.toList) State.reset = .next t ∧
      t.OFFSET = 0 ∧ t.COUNT = 64 ∧ t.V = CF IV block ∧ t.FIN = false := by
  obtain ⟨t, ht, ha, hf, hc, -⟩ := execAll_updateCommands block.toList reset_FIN (by simp) absorbed_reset
  refine ⟨t, ht, BitVec.eq_of_toNat_eq ?_, BitVec.eq_of_toNat_eq ?_, ?_, hf⟩
  · simpa using ha.offset
  · simpa using hc
  · simpa [compressBlocks, blockAt_toList] using ha.chain

/-- Its first 63 UPDATEs compress nothing (R184). -/
theorem updateCommands_take_63 (block : Block) :
    ∃ t, execAll (updateCommands (block.toList.take 63)) State.reset = .next t ∧
      t.OFFSET = 63 ∧ t.COUNT = 63 ∧ t.V = IV ∧ t.FIN = false := by
  obtain ⟨t, ht, ha, hf, hc, -⟩ :=
    execAll_updateCommands (block.toList.take 63) reset_FIN (by simp) absorbed_reset
  refine ⟨t, ht, BitVec.eq_of_toNat_eq ?_, BitVec.eq_of_toNat_eq ?_, ?_, hf⟩
  · simpa using ha.offset
  · simpa using hc
  · simpa [compressBlocks] using ha.chain

/-- Settles O25: an accepted UPDATE absorbs as O24 says, from the state with COUNT already stepped; the examples are one whole
block absorbed, and one byte less. -/
theorem updateAppendsOneByte : Obligations.UpdateAppendsOneByte := by
  refine ⟨fun b => decode_eq_ok_iff_eq_encode.2 (encode_update b).symm, fun b s hf hc => ?_,
    fun b s hf => exec_update_rejected b (updateCheck_finalized hf),
    fun b s hf hc => exec_update_rejected b (updateCheck_saturated hf hc),
    fun block => ⟨updateCommands_block block, updateCommands_take_63 block⟩⟩
  have hacc : updateCheck s = none := updateCheck_none.2 ⟨hf, by omega⟩
  obtain ⟨hat, hother, hin, hfull, -⟩ :=
    absorbWritesOneByteAndCompressesAtTheBoundary b { s with COUNT := s.COUNT + 1 }
  refine ⟨_, exec_update_accepted b hacc, by simpa using count_succ_toNat hacc, by simpa using hf, rfl, by simp,
    hat, hother, ?_, fun h => (hin h).2, fun h => (hfull h).2⟩
  rw [respond_OFFSET, absorb_OFFSET, offset_succ_toNat]

/-! ## FINAL -/

/-- Every field after an accepted FINAL: V, BUF and OFFSET are written through absorb alone (R185). -/
theorem exec_final_fields {s : State} (hf : s.FIN = false) (hc : s.COUNT.toNat < 2 ^ 61) :
    ∃ t, exec .final s = .next t ∧
      (t.V = (absorbAll (paddingBytes s.OFFSET s.COUNT) s).V ∧
        t.BUF = (absorbAll (paddingBytes s.OFFSET s.COUNT) s).BUF ∧
        t.OFFSET = (absorbAll (paddingBytes s.OFFSET s.COUNT) s).OFFSET) ∧
      t.FIN = true ∧ t.COUNT = s.COUNT ∧ t.OFFSET = 0 ∧ t.port = s.port ∧ t.rsp = some (.digest (digestBytes t.V)) := by
  refine ⟨_, exec_final_accepted (finalCheck_none.2 ⟨hf, hc⟩), ⟨?_, ?_, ?_⟩, ?_, ?_, ?_, ?_, ?_⟩
  · rw [respond_V, finalize_V]
  · rw [respond_BUF, finalize_BUF]
  · rw [respond_OFFSET, finalize_OFFSET, absorbAll_padding_OFFSET]
  · rw [respond_FIN, finalize_FIN]
  · rw [respond_COUNT, finalize_COUNT]
  · rw [respond_OFFSET, finalize_OFFSET]
  · rw [respond_port, finalize_port]
  · rw [respond_rsp, respond_V]

theorem finalCheck_finalized {s : State} (hf : s.FIN = true) : finalCheck s = some .finalAfterFinal := by
  simp [finalCheck, hf]

theorem finalCheck_lengthLimit {s : State} (hf : s.FIN = false) (hc : 2 ^ 61 ≤ s.COUNT.toNat) :
    finalCheck s = some .lengthLimit := by
  rw [finalCheck, hf, if_neg (by simp), if_pos hc]

/-- While the engine accepts, the padding FINAL absorbs is the message's (R186). -/
theorem paddingBytes_eq_pad {o : BitVec 6} {c : BitVec 64} (hc : c.toNat < 2 ^ 61) (ho : o.toNat = c.toNat % 64) :
    paddingBytes o c = pad c.toNat := by
  have hzeros : zeroCount o = padZeros c.toNat := by rw [zeroCount_eq, padZeros, ho]
  rw [paddingBytes, pad, hzeros, bitLength_eq hc]

/-- The digest of FINAL after a whole message is the message's (R191). -/
theorem Absorbed.digestBytes_finalize {m : List Byte} {s : State} (h : Absorbed IV m s)
    (hc : s.COUNT.toNat = m.length) (hlen : m.length < 2 ^ 61) : digestBytes (finalize s).V = digestOf m := by
  have hpad : paddingBytes s.OFFSET s.COUNT = pad m.length := by
    rw [paddingBytes_eq_pad (by omega) (by rw [h.offset, hc]), hc]
  rw [finalize_V, hpad, (h.absorbAll (pad m.length)).chain, digestOf, paddedMessage]

/-- DIGEST_MSG from reset answers the message's digest and leaves the chaining state it is serialized from (R80, R191). -/
theorem execAll_digestMsg_reset {m : List Byte} (hlen : m.length < 2 ^ 61) :
    ∃ t, execAll (Pseudo.digestMsg m).expand State.reset = .next t ∧ t.rsp = some (.digest (digestOf m)) ∧
      t.FIN = true ∧ digestBytes t.V = digestOf m := by
  obtain ⟨u, ha, -, hc, -, hu⟩ := execAll_digestMsg m reset_FIN (by simpa using hlen) absorbed_reset
  have hd : digestBytes (finalize u).V = digestOf m := ha.digestBytes_finalize (by simpa using hc) hlen
  exact ⟨_, hu, by rw [respond_rsp, hd], by rw [respond_FIN, finalize_FIN], by rw [respond_V, hd]⟩

/-- The known digest of "abc" (R185, R188). -/
theorem digestOf_abc_data : (Response.digest (digestOf [0x61, 0x62, 0x63])).data =
    0x66c7f0f462eeedd9d1f2d46bdc10e4e24167c4875cf2f7a2297da02b8f4ba8e0 := by
  decide +kernel

/-- Settles O28: FINAL's padding is the rule's, `k` being a 6-bit subtraction and `L` exact below 2^61. -/
theorem finalPadsAndReturnsTheDigest : Obligations.FinalPadsAndReturnsTheDigest := by
  refine ⟨by decide, fun s hf hc => ?_, fun s hf => exec_final_rejected (finalCheck_finalized hf),
    fun s hf hc => exec_final_rejected (finalCheck_lengthLimit hf hc), ?_⟩
  · obtain ⟨t, ht, hfields⟩ := exec_final_fields hf hc
    have hk : (zeroCount s.OFFSET : Int) = (55 - (s.OFFSET.toNat : Int)) % 64 := by
      have := s.OFFSET.isLt
      rw [zeroCount_eq]
      omega
    exact ⟨t, bitLength s.COUNT, zeroCount s.OFFSET, ht, bitLength_toNat hc, hk, hfields⟩
  · obtain ⟨t, ht, hr, -⟩ := execAll_digestMsg_reset (m := [0x61, 0x62, 0x63]) (by decide)
    exact ⟨t, ht, by rw [hr, Option.map_some, digestOf_abc_data]⟩

/-! ## The one or two compressions of FINAL -/

/-- Up to OFFSET 55 the padding fills the current block, and that is the one compression (R187). -/
theorem finalize_V_oneBlock {s : State} (hc : s.COUNT.toNat < 2 ^ 61) (ho : s.OFFSET.toNat ≤ 55) :
    (finalize s).V = CF s.V (paddedBlock s) := by
  have hzeros : zeroCount s.OFFSET = 55 - s.OFFSET.toNat := by rw [zeroCount_eq]; omega
  rw [finalize_V, absorbAll_V_fill _ _ (by rw [paddingBytes_length]; omega)]
  refine congrArg (CF s.V) (Vector.ext fun i hi => ?_)
  rw [paddedBlock, Vector.getElem_ofFn, Vector.getElem_ofFn]
  dsimp only
  rw [List.getD_eq_getElem?_getD, paddingBytes_get _ hc, hzeros]
  by_cases hlt : i < s.OFFSET.toNat
  · rw [if_pos hlt, if_pos hlt]
  rw [if_neg hlt, if_neg hlt]
  by_cases heq : i = s.OFFSET.toNat
  · rw [if_pos heq, if_pos (by omega)]
    rfl
  rw [if_neg heq, if_neg (by omega)]
  by_cases h56 : i < 56
  · rw [if_pos h56, if_pos (by omega)]
    rfl
  · have hidx : i - s.OFFSET.toNat - (55 - s.OFFSET.toNat + 1) = i - 56 := by omega
    rw [if_neg h56, if_neg (by omega), dif_pos (by omega), Option.getD_some]
    simp only [hidx]

/-- From OFFSET 56 on, the padding is what fills the current block and a whole block with the length at its end. -/
theorem paddingBytes_split {o : BitVec 6} {c : BitVec 64} (hc : c.toNat < 2 ^ 61) (ho : 56 ≤ o.toNat) :
    paddingBytes o c =
      (0x80#8 :: List.replicate (63 - o.toNat) 0x00#8) ++ (List.replicate 56 0x00#8 ++ (lengthBytes c.toNat).toList) := by
  have := o.isLt
  have hzeros : zeroCount o = 63 - o.toNat + 56 := by rw [zeroCount_eq]; omega
  rw [paddingBytes, hzeros, ← List.replicate_append_replicate, bitLength_eq hc, lengthBytes, List.cons_append,
    List.append_assoc]

/-- 0x80 and zeros up to the end of the block compress the spilled block (R187). -/
theorem absorbAll_V_spilled (s : State) :
    (absorbAll (0x80#8 :: List.replicate (63 - s.OFFSET.toNat) 0x00#8) s).V = CF s.V (spilledBlock s) := by
  have := s.OFFSET.isLt
  rw [absorbAll_V_fill _ _ (by simp; omega)]
  refine congrArg (CF s.V) (Vector.ext fun i hi => ?_)
  rw [spilledBlock, Vector.getElem_ofFn, Vector.getElem_ofFn]
  dsimp only
  by_cases hlt : i < s.OFFSET.toNat
  · rw [if_pos hlt, if_pos hlt]
  rw [if_neg hlt, if_neg hlt]
  by_cases heq : i = s.OFFSET.toNat
  · simp [heq]
  · obtain ⟨n, hn⟩ : ∃ n, i - s.OFFSET.toNat = n + 1 := ⟨i - s.OFFSET.toNat - 1, by omega⟩
    rw [if_neg heq, hn]
    simp [show n < 63 - s.OFFSET.toNat by omega]

/-- At a block boundary, 56 zeros and the length of `s`'s message compress the length block (R187). -/
theorem absorbAll_V_length (s : State) {t : State} (ho : t.OFFSET = 0) :
    (absorbAll (List.replicate 56 0x00#8 ++ (lengthBytes s.COUNT.toNat).toList) t).V = CF t.V (lengthBlock s) := by
  rw [absorbAll_V_fill _ _ (by simp [ho])]
  refine congrArg (CF t.V) (Vector.ext fun i hi => ?_)
  rw [lengthBlock, Vector.getElem_ofFn, Vector.getElem_ofFn]
  dsimp only
  have hbs : (List.replicate 56 0x00#8).length = 56 := List.length_replicate
  have hoff : t.OFFSET.toNat = 0 := by rw [ho]; rfl
  rw [hoff, if_neg (Nat.not_lt_zero i), Nat.sub_zero, List.getD_eq_getElem?_getD]
  by_cases h56 : i < 56
  · rw [if_pos h56, List.getElem?_append_left (by rwa [hbs])]
    simp [h56, -List.reduceReplicate]
  · rw [if_neg h56, List.getElem?_append_right (by omega), hbs]
    simp [show i - 56 < 8 by omega]

/-- From OFFSET 56 on FINAL compresses twice (R187). -/
theorem finalize_V_twoBlocks {s : State} (hc : s.COUNT.toNat < 2 ^ 61) (ho : 56 ≤ s.OFFSET.toNat) :
    (finalize s).V = CF (CF s.V (spilledBlock s)) (lengthBlock s) := by
  have := s.OFFSET.isLt
  have hzero : (absorbAll (0x80#8 :: List.replicate (63 - s.OFFSET.toNat) 0x00#8) s).OFFSET = 0 := by
    apply BitVec.eq_of_toNat_eq
    rw [absorbAll_OFFSET_toNat]
    simp
    omega
  rw [finalize_V, paddingBytes_split hc ho, absorbAll_append, absorbAll_V_length s hzero, absorbAll_V_spilled]

/-! ## The transition table -/

/-- Only RESET clears FIN among the commands (R180). -/
theorem exec_clears_FIN {i : Instr} {s t : State} (h : exec i s = .next t) (hset : s.FIN = true) (hclear : t.FIN = false) :
    i = .reset := by
  obtain ⟨hi, -⟩ | ⟨b, -, hc, -⟩ | ⟨-, -, rfl⟩ | ⟨r, rfl⟩ := exec_cases h
  · exact hi
  · exact absurd hset (by simp [(updateCheck_none.1 hc).1])
  · exact absurd hclear (by simp)
  · exact absurd hclear (by simp [hset])

/-- The row of an accepted UPDATE (R180): what absorb does to V, BUF and OFFSET does not depend on COUNT. -/
theorem exec_update_row (b : Byte) {s : State} (hf : s.FIN = false) (hc : s.COUNT.toNat < 2 ^ 64 - 1) :
    ∃ t, exec (.update b) s = .next t ∧ t.FIN = false ∧ t.COUNT = s.COUNT + 1 ∧ t.rsp = some .ack ∧
      t.V = (absorb b s).V ∧ t.BUF = (absorb b s).BUF ∧ t.OFFSET = (absorb b s).OFFSET :=
  ⟨_, exec_update_accepted b (updateCheck_none.2 ⟨hf, by omega⟩), by simpa using hf, by simp, rfl,
    by simp [absorb_V], by simp, by simp⟩

/-- The row of an accepted FINAL (R180). -/
theorem exec_final_row {s : State} (hf : s.FIN = false) (hc : s.COUNT.toNat < 2 ^ 61) :
    ∃ t, exec .final s = .next t ∧ t.FIN = true ∧ t.COUNT = s.COUNT ∧
      (let u := absorbAll (paddingBytes s.OFFSET s.COUNT) s
       t.V = u.V ∧ t.BUF = u.BUF ∧ t.OFFSET = u.OFFSET) ∧
      (t.V = CF s.V (paddedBlock s) ∨ t.V = CF (CF s.V (spilledBlock s)) (lengthBlock s)) ∧
      t.rsp = some (.digest (digestBytes t.V)) := by
  obtain ⟨t, ht, habs, hfin, hcount, -, -, hrsp⟩ := exec_final_fields hf hc
  refine ⟨t, ht, hfin, hcount, habs, ?_, hrsp⟩
  rw [habs.1, ← finalize_V]
  obtain ho | ho : s.OFFSET.toNat ≤ 55 ∨ 56 ≤ s.OFFSET.toNat := by omega
  · exact .inl (finalize_V_oneBlock hc ho)
  · exact .inr (finalize_V_twoBlocks hc ho)

/-- Settles O41: each row is its command's accepted or rejected case, and OFFSET decides between FINAL's one compression and
two. -/
theorem transitionTable : Obligations.TransitionTable := by
  refine ⟨rfl, fun i s t => exec_clears_FIN, fun s later hp => ⟨_, step_rst hp, rfl⟩, fun s =>
    ⟨⟨_, exec_reset s, rfl, rfl, rfl, rfl, rfl⟩, fun hf => ?_, fun hf => ?_, exec_readStatus s, exec_readCount s,
      fun w hw => runWord_illegalWord hw s⟩⟩
  · exact ⟨fun b hc => exec_update_row b hf hc, fun b hc => exec_update_rejected b (updateCheck_saturated hf hc),
      fun hc => exec_final_row hf hc, fun hc => exec_final_rejected (finalCheck_lengthLimit hf hc),
      exec_readDigest_rejected hf⟩
  · exact ⟨fun b => exec_update_rejected b (updateCheck_finalized hf), exec_final_rejected (finalCheck_finalized hf),
      exec_readDigest_accepted hf⟩

/-! ## RESET and the empty message -/

/-- At OFFSET 0 with FIN clear the status word is 0 (R36, R183). -/
theorem statusWord_initial {s : State} (ho : s.OFFSET = 0) (hf : s.FIN = false) : statusWord s = 0x00000000 := by
  simp [statusWord, ho, hf]

/-- Settles O22: RESET writes constants, so a second one writes what stands there. -/
theorem resetRestoresTheInitialState : Obligations.ResetRestoresTheInitialState := by
  refine ⟨by decide, fun s => ⟨_, exec_reset s, rfl, rfl, rfl, rfl, rfl, rfl, rfl, exec_reset _, _, exec_readStatus _,
    ?_⟩⟩
  rw [respond_rsp, statusWord_initial rfl rfl]

/-- A reading command only responds (R60). -/
theorem exec_readsOnly {i : Instr} (h : readsOnly i = true) (s : State) : ∃ r, exec i s = .next (respond r s) := by
  cases i with
  | reset | update _ | final => cases h
  | readDigest =>
    cases hf : s.FIN with
    | true => exact ⟨_, exec_readDigest_accepted hf⟩
    | false => exact ⟨_, exec_readDigest_rejected hf⟩
  | readStatus => exact ⟨_, exec_readStatus s⟩
  | readCount => exact ⟨_, exec_readCount s⟩

/-- The engine is where both resets leave it (R38), the bytes of BUF and the ports aside: no byte of a message is ingested. -/
structure AtMessageStart (s : State) : Prop where
  chain : s.V = IV
  offset : s.OFFSET = 0
  count : s.COUNT = 0
  accepting : s.FIN = false

theorem atMessageStart_respond_reset (s : State) :
    AtMessageStart (respond .ack { s with V := IV, OFFSET := 0, COUNT := 0, FIN := false }) :=
  ⟨rfl, rfl, rfl, rfl⟩

theorem atMessageStart_reset : AtMessageStart State.reset := ⟨rfl, rfl, rfl, rfl⟩

/-- RESETs and reading commands leave an engine at the start of a message there. -/
theorem execAll_keeps_atMessageStart {is : List Instr} (his : ∀ i ∈ is, i = .reset ∨ readsOnly i = true) {s : State}
    (h : AtMessageStart s) : ∃ t, execAll is s = .next t ∧ AtMessageStart t := by
  induction is generalizing s with
  | nil => exact ⟨s, rfl, h⟩
  | cons i is ih =>
    obtain ⟨hi, hrest⟩ := List.forall_mem_cons.1 his
    obtain rfl | hi := hi
    · obtain ⟨t, ht, hat⟩ := ih hrest (atMessageStart_respond_reset s)
      exact ⟨t, (execAll_cons (exec_reset s) is).trans ht, hat⟩
    · obtain ⟨r, hr⟩ := exec_readsOnly hi s
      obtain ⟨t, ht, hat⟩ := ih hrest (s := respond r s) ⟨h.chain, h.offset, h.count, h.accepting⟩
      exact ⟨t, (execAll_cons hr is).trans ht, hat⟩

/-- FINAL there answers the digest of the empty message (R192). -/
theorem AtMessageStart.exec_final {s : State} (h : AtMessageStart s) :
    exec .final s = .next (respond (.digest (digestOf [])) (finalize s)) := by
  have hcount : s.COUNT.toNat = 0 := by rw [h.count]; rfl
  have hacc : finalCheck s = none := finalCheck_none.2 ⟨h.accepting, by omega⟩
  rw [exec_final_accepted hacc, (Absorbed.start h.chain h.offset).digestBytes_finalize hcount (by simp)]

/-- The known digest of the empty message (R192). -/
theorem digestOf_nil_data : (Response.digest (digestOf [])).data =
    0x1ab21d8355cfa17f8e61194831e81a8f22bec8c728fefb747ed035eb5082aa2b := by
  decide +kernel

/-- Settles O54: RESET starts a message and the commands after it ingest no byte of one. -/
theorem emptyMessageDigest : Obligations.EmptyMessageDigest := by
  refine ⟨⟨_, atMessageStart_reset.exec_final, respond_rsp _ _, finalize_FIN State.reset⟩, fun s is his => ?_,
    digestOf_nil_data⟩
  obtain ⟨t, ht, hat⟩ := execAll_keeps_atMessageStart his (atMessageStart_respond_reset s)
  have hreset : execAll (.reset :: is) s = .next t := (execAll_cons (exec_reset s) is).trans ht
  exact ⟨_, (execAll_append hreset).trans (execAll_cons hat.exec_final []), respond_rsp _ _, finalize_FIN t⟩

/-! ## READ_DIGEST -/

/-- Settles O32: what READ_DIGEST serializes is V, the digest FINAL answered. -/
theorem readDigestSerializesTheChainingState : Obligations.ReadDigestSerializesTheChainingState := by
  refine ⟨by decide, fun s hf => ⟨_, exec_readDigest_accepted hf, digestByteOrder s.V⟩,
    fun s hf => exec_readDigest_rejected hf, ?_⟩
  obtain ⟨t, ht, -, hf, hd⟩ := execAll_digestMsg_reset (m := [0x61, 0x62, 0x63]) (by decide)
  refine ⟨_, (execAll_append ht).trans (execAll_cons (exec_readDigest_accepted hf) []), ?_⟩
  rw [respond_rsp, Option.map_some, hd, digestOf_abc_data]

end Sys2Proof.Machine

/-!
The obligations on errors (spec/60_exceptions.md): the causes of the usage errors, what a rejected or illegal command leaves
unchanged, and which of several errors is reported.
-/

namespace Sys2Proof.Machine

/-! ## The causes of the usage errors -/

/-- R231's table: the commands that raise a usage error, and its cause. -/
def UsageReason.RaisedBy : UsageReason → Instr → State → Prop
  | .updateAfterFinal, i, s => (∃ b, i = .update b) ∧ s.FIN = true
  | .finalAfterFinal, i, s => i = .final ∧ s.FIN = true
  | .notFinalized, i, s => i = .readDigest ∧ s.FIN = false
  | .lengthLimit, i, s => i = .final ∧ s.FIN = false ∧ 2 ^ 61 ≤ s.COUNT.toNat
  | .countSaturated, i, s => (∃ b, i = .update b) ∧ s.FIN = false ∧ s.COUNT.toNat = 2 ^ 64 - 1

/-- A command in a row of the table is rejected with the row's reason, and the response is all it writes. -/
theorem exec_raised {u : UsageReason} {i : Instr} {s : State} (h : u.RaisedBy i s) :
    exec i s = .next (respond (.usageError u) s) := by
  cases u with
  | updateAfterFinal =>
    obtain ⟨⟨b, rfl⟩, hf⟩ := h
    exact exec_update_rejected b (updateCheck_finalized hf)
  | finalAfterFinal =>
    obtain ⟨rfl, hf⟩ := h
    exact exec_final_rejected (finalCheck_finalized hf)
  | notFinalized =>
    obtain ⟨rfl, hf⟩ := h
    exact exec_readDigest_rejected hf
  | lengthLimit =>
    obtain ⟨rfl, hf, hc⟩ := h
    exact exec_final_rejected (finalCheck_lengthLimit hf hc)
  | countSaturated =>
    obtain ⟨⟨b, rfl⟩, hf, hc⟩ := h
    exact exec_update_rejected b (updateCheck_saturated hf hc)

/-- UPDATE's check passes or gives one of UPDATE's rows. -/
theorem updateCheck_raised {s : State} {u : UsageReason} (b : Byte) (h : updateCheck s = some u) :
    u.RaisedBy (.update b) s := by
  unfold updateCheck at h
  split_ifs at h with hf hc <;> cases h
  · exact ⟨⟨b, rfl⟩, hf⟩
  · exact ⟨⟨b, rfl⟩, Bool.eq_false_of_not_eq_true hf, hc⟩

/-- FINAL's check passes or gives one of FINAL's rows. -/
theorem finalCheck_raised {s : State} {u : UsageReason} (h : finalCheck s = some u) : u.RaisedBy .final s := by
  unfold finalCheck at h
  split_ifs at h with hf hc <;> cases h
  · exact ⟨rfl, hf⟩
  · exact ⟨rfl, Bool.eq_false_of_not_eq_true hf, hc⟩

/-- Every command answers: it is in a row of the table, or it answers something else than a usage error. -/
theorem exec_raised_or_accepted (i : Instr) (s : State) :
    (∃ u, UsageReason.RaisedBy u i s) ∨ ∃ t, exec i s = .next t ∧ ∀ u, t.rsp ≠ some (.usageError u) := by
  cases i with
  | reset => exact .inr ⟨_, exec_reset s, by simp⟩
  | update b =>
    cases hc : updateCheck s with
    | none => exact .inr ⟨_, exec_update_accepted b hc, by simp⟩
    | some u => exact .inl ⟨u, updateCheck_raised b hc⟩
  | final =>
    cases hc : finalCheck s with
    | none => exact .inr ⟨_, exec_final_accepted hc, by simp⟩
    | some u => exact .inl ⟨u, finalCheck_raised hc⟩
  | readDigest =>
    cases hf : s.FIN with
    | true => exact .inr ⟨_, exec_readDigest_accepted hf, by simp⟩
    | false => exact .inl ⟨.notFinalized, rfl, hf⟩
  | readStatus => exact .inr ⟨_, exec_readStatus s, by simp⟩
  | readCount => exact .inr ⟨_, exec_readCount s, by simp⟩

/-- Every command answers a next state. -/
theorem exec_next (i : Instr) (s : State) : ∃ t, exec i s = .next t := by
  obtain ⟨u, hu⟩ | ⟨t, ht, -⟩ := exec_raised_or_accepted i s
  · exact ⟨_, exec_raised hu⟩
  · exact ⟨t, ht⟩

/-- A command answers a usage error exactly when it is in that error's row. -/
theorem exec_usageError_iff {i : Instr} {s t : State} (h : exec i s = .next t) (u : UsageReason) :
    t.rsp = some (.usageError u) ↔ u.RaisedBy i s := by
  constructor
  · intro hrsp
    obtain ⟨v, hv⟩ | ⟨t', ht', hother⟩ := exec_raised_or_accepted i s
    · cases h.symm.trans (exec_raised hv)
      cases hrsp
      exact hv
    · cases h.symm.trans ht'
      exact absurd hrsp (hother u)
  · intro hu
    cases h.symm.trans (exec_raised hu)
    rfl

/-- Settles O37: a command answers a usage error in that error's row of the table only, and there only responds. -/
theorem usageErrorsHaveExactlyTheirCauses : Obligations.UsageErrorsHaveExactlyTheirCauses := by
  refine ⟨⟨rfl, rfl, rfl, rfl, rfl⟩, fun i s => ?_⟩
  obtain ⟨t, ht⟩ := exec_next i s
  have hrow := exec_usageError_iff ht
  refine ⟨t, ht, hrow .updateAfterFinal, hrow .finalAfterFinal, hrow .notFinalized, hrow .lengthLimit,
    hrow .countSaturated, fun ⟨u, hu⟩ => ?_⟩
  cases ht.symm.trans (exec_raised ((hrow u).1 hu))
  rfl

/-! ## A pending response influences no command -/

theorem absorb_respond (b : Byte) (r : Response) (s : State) : absorb b (respond r s) = respond r (absorb b s) := by
  by_cases h : s.OFFSET = 63 <;> simp only [absorb, respond_OFFSET, h, reduceIte] <;> rfl

theorem absorbAll_respond (bs : List Byte) (r : Response) (s : State) :
    absorbAll bs (respond r s) = respond r (absorbAll bs s) := by
  induction bs generalizing s with
  | nil => rfl
  | cons b bs ih => rw [absorbAll_cons, absorbAll_cons, absorb_respond, ih]

theorem finalize_respond (r : Response) (s : State) : finalize (respond r s) = respond r (finalize s) := by
  rw [finalize, absorbAll_respond]
  rfl

/-- A command reads no response and writes its own over the one that stands there. -/
theorem exec_respond (i : Instr) (r : Response) (s : State) : exec i (respond r s) = exec i s := by
  cases i with
  | reset | readStatus | readCount => rfl
  | update b =>
    cases hc : updateCheck s with
    | none =>
      have habsorb : absorb b { respond r s with COUNT := (respond r s).COUNT + 1 } =
          respond r (absorb b { s with COUNT := s.COUNT + 1 }) :=
        absorb_respond b r { s with COUNT := s.COUNT + 1 }
      rw [exec_update_accepted b hc, exec_update_accepted (s := respond r s) b hc, habsorb, respond_respond]
    | some u => rw [exec_update_rejected b hc, exec_update_rejected (s := respond r s) b hc, respond_respond]
  | final =>
    cases hc : finalCheck s with
    | none =>
      rw [exec_final_accepted hc, exec_final_accepted (s := respond r s) hc, finalize_respond, respond_V, respond_respond]
    | some u => rw [exec_final_rejected hc, exec_final_rejected (s := respond r s) hc, respond_respond]
  | readDigest =>
    cases hf : s.FIN with
    | true =>
      rw [exec_readDigest_accepted hf, exec_readDigest_accepted (s := respond r s) hf, respond_V, respond_respond]
    | false => rw [exec_readDigest_rejected hf, exec_readDigest_rejected (s := respond r s) hf, respond_respond]

/-- Nor does any command word. -/
theorem runWord_respond (w : CmdWord) (r : Response) (s : State) : runWord w (respond r s) = runWord w s := by
  cases hd : decode w with
  | error e => rw [runWord_error hd, runWord_error hd, respond_respond]
  | ok i => rw [runWord_ok hd, runWord_ok hd, exec_respond]

/-! ## Rejected and illegal commands -/

/-- A word answered with an error writes the response and nothing else. -/
theorem runWord_error_responds {w : CmdWord} {s t : State} (h : runWord w s = .next t)
    (herr : (∃ u, t.rsp = some (.usageError u)) ∨ t.rsp = some .illegalCommand) : ∃ r, t = respond r s := by
  cases hd : decode w with
  | error e =>
    cases h.symm.trans (runWord_error hd s)
    exact ⟨_, rfl⟩
  | ok i =>
    rw [runWord_ok hd] at h
    obtain ⟨-, rfl⟩ | ⟨b, -, -, rfl⟩ | ⟨-, -, rfl⟩ | hr := exec_cases h
    · simp at herr
    · simp at herr
    · simp at herr
    · exact hr

/-- Settles O38: an error is a response only, and no word's meaning depends on the response. -/
theorem rejectedCommandsChangeNoState : Obligations.RejectedCommandsChangeNoState := by
  intro w s t h herr
  obtain ⟨r, rfl⟩ := runWord_error_responds h herr
  exact ⟨rfl, rfl, rfl, rfl, rfl, rfl, fun w' => runWord_respond w' r s⟩

/-- Settles O39: no illegal word decodes, and a word that does not is answered so in every state. -/
theorem illegalWordsAnswerIllegalCommand : Obligations.IllegalWordsAnswerIllegalCommand :=
  ⟨rfl, fun _ s hw => runWord_illegalWord hw s⟩

/-! ## Priority -/

/-- A command in a row of the table answers that row's error, whatever else holds of the state. -/
theorem exec_raised_rsp {u : UsageReason} {i : Instr} {s : State} (h : u.RaisedBy i s) :
    ∃ t, exec i s = .next t ∧ t.rsp = some (.usageError u) :=
  ⟨_, exec_raised h, respond_rsp _ s⟩

/-- Settles O40: an illegal word runs no check, and the rows of the state checks do not mention COUNT while those of the length
checks ask for FIN = 0. -/
theorem errorPriority : Obligations.ErrorPriority := by
  have hillegal (w : CmdWord) (s : State) (hw : IllegalWord w) :
      ∃ t, runWord w s = .next t ∧ t.rsp = some .illegalCommand :=
    ⟨_, runWord_illegalWord hw s, respond_rsp _ s⟩
  refine ⟨hillegal, fun s => hillegal 0x0301 s (by decide), fun s hf => ⟨?_, fun b => ?_⟩, fun s hf =>
    ⟨?_, fun hc => ?_, fun hc b => ?_⟩⟩
  · exact exec_raised_rsp (u := .finalAfterFinal) ⟨rfl, hf⟩
  · exact exec_raised_rsp (u := .updateAfterFinal) ⟨⟨b, rfl⟩, hf⟩
  · exact exec_raised_rsp (u := .notFinalized) ⟨rfl, hf⟩
  · exact exec_raised_rsp (u := .lengthLimit) ⟨rfl, hf, hc⟩
  · exact exec_raised_rsp (u := .countSaturated) ⟨⟨b, rfl⟩, hf, hc⟩

end Sys2Proof.Machine

/-!
The obligations on the encoder, the decoder and the assembler (spec/30_encoding.md): a command and its word determine each other,
and a word R74 does not list has a command.
-/

namespace Sys2Proof

/-! ## Encoder and decoder -/

/-- Settles O1: a word decodes to a command exactly when it is the command's encoding. -/
theorem decodeOfEncode : Obligations.DecodeOfEncode :=
  fun _ _ => decode_eq_ok_iff_eq_encode.2 rfl

/-- Settles O2: the other direction of the same equivalence. -/
theorem decodedWordIsItsEncoding : Obligations.DecodedWordIsItsEncoding :=
  fun _ _ => decode_eq_ok_iff_eq_encode.1

/-- A word whose two fields have the numbers of a command's opcode and operand decodes to that command. -/
theorem decode_of_fields_toNat {w : CmdWord} {i : Instr} (hc : w.toNat / 256 = i.opcode.toNat)
    (hd : w.toNat % 256 = i.operand.toNat) : decode w = .ok i :=
  decode_eq_ok_iff.2 ⟨BitVec.eq_of_toNat_eq ((opcField_toNat w).trans hc), BitVec.eq_of_toNat_eq ((opdField_toNat w).trans hd)⟩

/-- A word that R74 does not list is some command's: its OPC is one of the six, and its operand is 0 unless that is UPDATE's. -/
theorem exists_decode_of_not_illegalWord {w : CmdWord} (h : ¬ Machine.IllegalWord w) : ∃ i, decode w = .ok i := by
  obtain ⟨hzero, hseven, hopd⟩ : w.toNat / 256 ≠ 0 ∧ ¬ 7 ≤ w.toNat / 256 ∧ (w.toNat / 256 = 2 ∨ w.toNat % 256 = 0) := by
    rw [Machine.IllegalWord] at h
    omega
  by_cases hupdate : w.toNat / 256 = 2
  · exact ⟨.update (opdField w), decode_of_fields_toNat hupdate (opdField_toNat w).symm⟩
  have hd : w.toNat % 256 = 0 := hopd.resolve_left hupdate
  obtain hc | hc | hc | hc | hc : w.toNat / 256 = 1 ∨ w.toNat / 256 = 3 ∨ w.toNat / 256 = 4 ∨ w.toNat / 256 = 5 ∨
    w.toNat / 256 = 6 := by omega
  · exact ⟨.reset, decode_of_fields_toNat hc hd⟩
  · exact ⟨.final, decode_of_fields_toNat hc hd⟩
  · exact ⟨.readDigest, decode_of_fields_toNat hc hd⟩
  · exact ⟨.readStatus, decode_of_fields_toNat hc hd⟩
  · exact ⟨.readCount, decode_of_fields_toNat hc hd⟩

/-- Settles O4: a word either decodes or gives an error, and it decodes exactly when R74 does not list it. -/
theorem decoderRefusesExactlyIllegalWords : Obligations.DecoderRefusesExactlyIllegalWords := by
  intro w
  cases hw : decode w with
  | ok i => simpa using not_illegalWord_of_decode hw
  | error e =>
    refine iff_of_true (by_contra fun hlegal => ?_) ⟨e, rfl⟩
    obtain ⟨i, hi⟩ := exists_decode_of_not_illegalWord hlegal
    cases hw.symm.trans hi

/-- Settles O5: thirteen fixed words, decoded. -/
theorem writtenOutWordsDecode : Obligations.WrittenOutWordsDecode := by
  unfold Obligations.WrittenOutWordsDecode
  decide

/-! ## The assembler -/

/-- The word of UPDATE for a byte written as a number (R81). -/
theorem encode_update_ofNat {n : Nat} (h : n ≤ 255) :
    encode (.update (BitVec.ofNat 8 n)) = 0x0200 ||| BitVec.ofNat 16 n := by
  have hbyte : (BitVec.ofNat 8 n).setWidth 16 = BitVec.ofNat 16 n :=
    BitVec.eq_of_toNat_eq (by simp; omega)
  rw [Machine.encode_update, hbyte]

/-- A well-formed line assembles to its commands' words. -/
theorem assemble_of_wellFormed {l : AsmLine} (h : l.wellFormed = true) : assemble l = some (l.commands.map encode) :=
  if_pos h

/-- The words of UPDATE_BYTES of an ASCII string (R80, R81). -/
theorem updateCommands_ascii_map_encode {cs : List Char} (h : ∀ c ∈ cs, c.toNat < 128) :
    (updateCommands (BytesLit.ascii cs).value).map encode = cs.map fun c => 0x0200 ||| BitVec.ofNat 16 c.toNat := by
  simp only [updateCommands, BytesLit.value, List.map_map]
  exact List.map_congr_left fun c hc => encode_update_ofNat (Nat.le_of_lt (Nat.lt_trans (h c hc) (by decide)))

/-- UPDATE of a byte that is written as the number `n` in any of the literal forms. -/
theorem assemble_update {b : ByteLit} {n : Nat} (hwf : b.wellFormed = true) (hvalue : b.value = BitVec.ofNat 8 n)
    (hn : n ≤ 255) : assemble (.update b) = some [0x0200 ||| BitVec.ofNat 16 n] := by
  rw [assemble_of_wellFormed (l := .update b) hwf, AsmLine.commands, hvalue, ← encode_update_ofNat hn]
  rfl

/-- Settles O58: each literal form is a number of at most 255, and a string is one UPDATE per character. -/
theorem assembledWords : Obligations.AssembledWords := by
  refine ⟨fun n hn => ⟨?_, ?_⟩, fun c hc => ?_, by decide, by decide, by decide, by decide, by decide, by decide,
    fun cs hcs => ?_⟩
  · exact assemble_update (b := .hex n) (decide_eq_true hn) rfl hn
  · exact assemble_update (b := .dec n) (decide_eq_true hn) rfl hn
  · exact assemble_update (b := .chr c) (decide_eq_true hc) rfl (by omega)
  · have hwf : (BytesLit.ascii cs).wellFormed = true := by simpa [BytesLit.wellFormed] using hcs
    rw [assemble_of_wellFormed (l := .updateBytes (.ascii cs)) hwf, assemble_of_wellFormed (l := .digestMsg (.ascii cs)) hwf,
      ← updateCommands_ascii_map_encode hcs]
    exact ⟨rfl, congrArg some List.map_append⟩

end Sys2Proof

/-!
The obligation on the endian converter (spec/40_word_primitives.md): the bytes of a big-endian word are the bytes it was made of,
and four bytes in a row determine a word.
-/

namespace Sys2Proof.Machine

/-! ## The endian converter's round trips -/

/-- The bytes of a big-endian word are the four it is made of. -/
theorem byteOfWord_wordOfBytes (b : Fin 4 → Byte) (k : Fin 4) :
    byteOfWord (wordOfBytes (b 0) (b 1) (b 2) (b 3)) k.val = b k := by
  apply BitVec.eq_of_getLsbD_eq
  intro i hi
  simp only [byteOfWord, wordOfBytes_eq_append, BitVec.getLsbD_extractLsb', BitVec.getLsbD_append]
  obtain rfl | rfl | rfl | rfl : k = 0 ∨ k = 1 ∨ k = 2 ∨ k = 3 := by omega
  all_goals grind

/-- A word is made of its four bytes. -/
theorem wordOfBytes_byteOfWord (x : Word) :
    wordOfBytes (byteOfWord x 0) (byteOfWord x 1) (byteOfWord x 2) (byteOfWord x 3) = x :=
  word_eq_of_bytes fun k hk => byteOfWord_wordOfBytes (fun j => byteOfWord x j.val) ⟨k, hk⟩

/-- Byte `4i + k` of the serialized words is byte `k` of word `i`. -/
theorem wordsToBytesBE_getElem_add {m : Nat} (w : Vector Word m) {i k : Nat} (hi : i < m) (hk : k < 4) :
    (wordsToBytesBE w)[4 * i + k] = byteOfWord w[i] k := by
  simp only [wordsToBytesBE_getElem, show (4 * i + k) / 4 = i by omega, show (4 * i + k) % 4 = k by omega]

/-- Settles O10: byte `4i + k` is byte `k` of word `i` in both directions. -/
theorem endianConverterRoundTrip : Obligations.EndianConverterRoundTrip := by
  refine ⟨fun m w => Vector.ext fun i hi => ?_, fun m s => Vector.ext fun n hn => ?_⟩
  · calc (bytesToWordsBE (wordsToBytesBE w))[i]
        = wordOfBytes (wordsToBytesBE w)[4 * i + 0] (wordsToBytesBE w)[4 * i + 1] (wordsToBytesBE w)[4 * i + 2]
            (wordsToBytesBE w)[4 * i + 3] := bytesToWordsBE_getElem _ i hi
      _ = wordOfBytes (byteOfWord w[i] 0) (byteOfWord w[i] 1) (byteOfWord w[i] 2) (byteOfWord w[i] 3) := by
          simp (disch := decide) only [wordsToBytesBE_getElem_add w hi]
      _ = w[i] := wordOfBytes_byteOfWord w[i]
  · have hbyte : (wordsToBytesBE (bytesToWordsBE s))[n] = s[4 * (n / 4) + n % 4] := by
      rw [wordsToBytesBE_getElem, bytesToWordsBE_getElem]
      exact byteOfWord_wordOfBytes (fun k => s[4 * (n / 4) + k.val]) ⟨n % 4, Nat.mod_lt n (by decide)⟩
    rw [hbyte]
    simp only [Nat.div_add_mod]

end Sys2Proof.Machine

/-!
The known answers of spec/95_test_vectors.md: the compression of two blocks and the digests of three messages, evaluated by the
kernel.
-/

namespace Sys2Proof.Machine

/-- Settles O20, one compression at a time. -/
theorem compressionOfKnownBlocks : Obligations.CompressionOfKnownBlocks := by
  constructor
  · decide +kernel
  · decide +kernel

/-- 55 bytes are the longest message whose padding fits its block. -/
theorem digestOf_replicate_55_data : (Response.digest (digestOf (List.replicate 55 0x61))).data =
    0x288337eef51eec62e7544d7270424c8dbe656254c99852870a73b2453a6a7fb1 := by
  decide +kernel

/-- The padding of 56 bytes takes a second block. -/
theorem digestOf_replicate_56_data : (Response.digest (digestOf (List.replicate 56 0x61))).data =
    0xba00ebedaab54065a5fd4f9f56326016203166bcee3eed44ea868d59d67aa3c8 := by
  decide +kernel

/-- Settles O55, one message at a time. -/
theorem knownAnswerDigests : Obligations.KnownAnswerDigests :=
  ⟨digestOf_abc_data, digestOf_replicate_55_data, digestOf_replicate_56_data⟩

end Sys2Proof.Machine

/-!
The obligations on whole messages (spec/20_memory.md section 1, spec/44_streaming_commands.md section 4): RESET starts a message
from any state, the UPDATEs after it absorb the message, and FINAL then answers its digest, however the UPDATEs were grouped.
-/

namespace Sys2Proof.Machine

/-! ## A message from its start -/

/-- An engine at the start of a message has absorbed nothing. -/
theorem AtMessageStart.absorbed {s : State} (h : AtMessageStart s) : Absorbed IV [] s :=
  .start h.chain h.offset

theorem AtMessageStart.count_toNat {s : State} (h : AtMessageStart s) : s.COUNT.toNat = 0 := by
  rw [h.count]
  rfl

/-- A command sequence after RESET runs from the start of a message. -/
theorem execAll_reset_cons (is : List Instr) (s : State) :
    ∃ u, AtMessageStart u ∧ execAll (.reset :: is) s = execAll is u :=
  ⟨_, atMessageStart_respond_reset s, execAll_cons (exec_reset s) is⟩

/-- Settles O26: the UPDATEs absorb the message from OFFSET 0, and `Absorbed` says where that leaves V, OFFSET and BUF. -/
theorem bufferHoldsTheMessageTail : Obligations.BufferHoldsTheMessageTail := by
  intro s m hlen
  obtain ⟨u, hstart, hu⟩ := execAll_reset_cons (updateCommands m) s
  have hroom : u.COUNT.toNat + m.length < 2 ^ 64 := by rwa [hstart.count_toNat, Nat.zero_add]
  obtain ⟨t, ht, habs, hfin, hcount, -⟩ := execAll_updateCommands m hstart.accepting hroom hstart.absorbed
  rw [hstart.count_toNat, Nat.zero_add] at hcount
  exact ⟨t, hu.trans ht, hfin, hcount, habs.offset, habs.chain, habs.buffer⟩

/-- DIGEST_MSG at the start of a message answers the message's digest (R191). -/
theorem AtMessageStart.execAll_digestMsg {m : List Byte} (hlen : m.length < 2 ^ 61) {s : State} (h : AtMessageStart s) :
    ∃ t, execAll (Pseudo.digestMsg m).expand s = .next t ∧ t.rsp = some (.digest (digestOf m)) ∧ t.FIN = true ∧
      t.COUNT.toNat = m.length := by
  have hroom : s.COUNT.toNat + m.length < 2 ^ 61 := by rwa [h.count_toNat, Nat.zero_add]
  obtain ⟨u, habs, -, hcount, -, hu⟩ := Machine.execAll_digestMsg m h.accepting hroom h.absorbed
  rw [h.count_toNat, Nat.zero_add] at hcount
  rw [List.nil_append] at habs
  exact ⟨_, hu, by rw [respond_rsp, habs.digestBytes_finalize hcount hlen], finalize_FIN u,
    by rwa [respond_COUNT, finalize_COUNT]⟩

/-- Settles O53: RESET starts a message, and DIGEST_MSG is run from there. -/
theorem digestResponseIsTheHashOfTheMessage : Obligations.DigestResponseIsTheHashOfTheMessage := by
  intro s m hlen
  obtain ⟨u, hstart, hu⟩ := execAll_reset_cons (Pseudo.digestMsg m).expand s
  obtain ⟨t, ht, hdigest⟩ := hstart.execAll_digestMsg hlen
  exact ⟨t, hu.trans ht, hdigest⟩

/-- The UPDATE_BYTES of several chunks are the UPDATEs of the chunks joined (R80). -/
theorem flatMap_updateBytes_expand (chunks : List (List Byte)) :
    (chunks.flatMap fun c => (Pseudo.updateBytes c).expand) = updateCommands chunks.flatten := by
  simp only [Pseudo.expand, updateCommands, List.flatMap_def, List.map_flatten]

/-- Settles O56: the chunks make the very command sequence of the message they join to. -/
theorem chunkingCannotChangeTheDigest : Obligations.ChunkingCannotChangeTheDigest := by
  intro s chunks hlen
  obtain ⟨t, ht, hrsp, -⟩ := digestResponseIsTheHashOfTheMessage s chunks.flatten hlen
  rw [flatMap_updateBytes_expand]
  exact ⟨t, ht, hrsp⟩

end Sys2Proof.Machine

/-!
The obligations on a finalized engine and on the reading commands (spec/30_encoding.md section 4, spec/20_memory.md section 3,
spec/44_streaming_commands.md section 3): UPDATE and FINAL are rejected there, a reading command only responds, and so V and the
digest stay.
-/

namespace Sys2Proof.Machine

/-! ## UPDATE_BYTES on a finalized engine -/

/-- UPDATEs that are rejected leave the state that made the first one be rejected, so the others are too. -/
theorem execAll_updateCommands_rejected {r : UsageReason} {s : State} (h : updateCheck s = some r) (b : Byte)
    (m : List Byte) : execAll (updateCommands (b :: m)) s = .next (respond (.usageError r) s) := by
  induction m generalizing b s with
  | nil => exact execAll_cons (exec_update_rejected b h) []
  | cons c m ih => exact (execAll_cons (exec_update_rejected b h) _).trans (ih (s := respond (.usageError r) s) h c)

/-- Settles O27: in Finalized the check rejects the first UPDATE. -/
theorem updateBytesAfterFinalChangesNothing : Obligations.UpdateBytesAfterFinalChangesNothing :=
  fun _ b m hf => execAll_updateCommands_rejected (updateCheck_finalized hf) b m

/-! ## The reading commands -/

/-- A command reads no pending response, the empty port included. -/
theorem exec_rsp_irrelevant (i : Instr) (q : Option Response) (s : State) : exec i { s with rsp := q } = exec i s :=
  (exec_respond i .ack { s with rsp := q }).symm.trans (exec_respond i .ack s)

/-- Reading commands leave at most another response. -/
theorem execAll_readsOnly {is : List Instr} (his : ∀ i ∈ is, readsOnly i = true) (s : State) :
    ∃ q, execAll is s = .next { s with rsp := q } := by
  induction is generalizing s with
  | nil => exact ⟨s.rsp, rfl⟩
  | cons i is ih =>
    obtain ⟨hi, hrest⟩ := List.forall_mem_cons.1 his
    obtain ⟨r, hr⟩ := exec_readsOnly hi s
    obtain ⟨q, hq⟩ := ih hrest (respond r s)
    exact ⟨q, (execAll_cons hr is).trans hq⟩

/-- Settles O35: the sequence leaves another response only, which the next command does not read. -/
theorem readingCommandsHaveNoSideEffects : Obligations.ReadingCommandsHaveNoSideEffects := by
  intro s i is _ his
  obtain ⟨q, hq⟩ := execAll_readsOnly his s
  obtain ⟨u, hu⟩ := exec_next i s
  exact ⟨_, u, hq, rfl, (exec_rsp_irrelevant i q s).trans hu, hu⟩

/-! ## The digest in Finalized -/

/-- In Finalized every command but RESET leaves FIN and V as they are: UPDATE and FINAL are rejected. -/
theorem exec_keeps_finalized {i : Instr} {s t : State} (h : exec i s = .next t) (hi : i ≠ .reset) (hf : s.FIN = true) :
    t.FIN = true ∧ t.V = s.V := by
  obtain ⟨rfl, -⟩ | ⟨b, -, hc, -⟩ | ⟨-, hc, -⟩ | ⟨r, rfl⟩ := exec_cases h
  · exact absurd rfl hi
  · exact absurd hf (by simp [(updateCheck_none.1 hc).1])
  · exact absurd hf (by simp [(finalCheck_none.1 hc).1])
  · exact ⟨hf, rfl⟩

theorem execAll_keeps_finalized {is : List Instr} (his : Instr.reset ∉ is) {s : State} (hf : s.FIN = true) :
    ∃ t, execAll is s = .next t ∧ t.FIN = true ∧ t.V = s.V := by
  induction is generalizing s with
  | nil => exact ⟨s, rfl, hf, rfl⟩
  | cons i is ih =>
    obtain ⟨hi, hrest⟩ := List.ne_and_not_mem_of_not_mem_cons his
    obtain ⟨u, hu⟩ := exec_next i s
    obtain ⟨hfu, hVu⟩ := exec_keeps_finalized hu hi.symm hf
    obtain ⟨t, ht, hft, hVt⟩ := ih hrest hfu
    exact ⟨t, (execAll_cons hu is).trans ht, hft, hVt.trans hVu⟩

/-- Settles O36: FINAL's digest is V serialized, and V stays. -/
theorem digestStaysReadableUntilReset : Obligations.DigestStaysReadableUntilReset := by
  intro s is hf hc his
  obtain ⟨t, ht, -, hft, -, -, -, hrsp⟩ := exec_final_fields hf hc
  obtain ⟨u, hu, hfu, hV⟩ := execAll_keeps_finalized his hft
  exact ⟨t, u, _, digestBytes t.V, ht, hrsp, hu, exec_readDigest_accepted hfu, by rw [respond_rsp, hV]⟩

end Sys2Proof.Machine

/-!
The obligations on FINAL's padding (spec/44_streaming_commands.md section 3): its length, and the block or two blocks that it
leaves in BUF and compresses.
-/

namespace Sys2Proof.Machine

/-! ## The length of the padding -/

theorem pad_length (n : Nat) : (pad n).length = 9 + padZeros n := by
  simp [pad]
  omega

/-- Settles O31: the lengths are arithmetic modulo 64, and the invariant ties OFFSET, from which FINAL counts, to COUNT. -/
theorem paddingFillsTheBlock : Obligations.PaddingFillsTheBlock := by
  refine ⟨fun n => ?_, fun s hinv hf hc => paddingBytes_eq_pad hc (hinv.accepting hf)⟩
  rw [pad_length, padZeros]
  exact ⟨by omega, by omega, fun k hk => by omega⟩

/-! ## BUF after the padding -/

/-- Absorbing writes no byte outside BUF[0..63]. -/
theorem absorbAll_read_outside (bs : List Byte) (s : State) {j : Nat} (hj : 64 ≤ j) :
    Memory.read (absorbAll bs s).BUF j = Memory.read s.BUF j := by
  induction bs generalizing s with
  | nil => rfl
  | cons b bs ih =>
    have hne : j ≠ s.OFFSET.toNat := by have := s.OFFSET.isLt; omega
    rw [absorbAll_cons, ih, absorb_BUF, Memory.read_write_other _ b hne]

/-- Up to OFFSET 55 the padding is the padded block from OFFSET on (R187). -/
theorem paddingBytes_getElem?_oneBlock {s : State} (hc : s.COUNT.toNat < 2 ^ 61) (ho : s.OFFSET.toNat ≤ 55) {a : Nat}
    (hlo : s.OFFSET.toNat ≤ a) (ha : a < 64) :
    (paddingBytes s.OFFSET s.COUNT)[a - s.OFFSET.toNat]? = some (paddedBlock s)[a] := by
  have hzeros : zeroCount s.OFFSET = 55 - s.OFFSET.toNat := by rw [zeroCount_eq]; omega
  rw [paddingBytes_get _ hc, hzeros, paddedBlock, Vector.getElem_ofFn, if_neg (Nat.not_lt.2 hlo)]
  by_cases heq : a = s.OFFSET.toNat
  · rw [if_pos (by omega), if_pos heq]
  rw [if_neg (by omega), if_neg heq]
  by_cases h56 : a < 56
  · rw [if_pos (by omega), if_pos h56]
  · rw [if_neg (by omega), if_neg h56, dif_pos (by omega)]
    simp only [show a - s.OFFSET.toNat - (55 - s.OFFSET.toNat + 1) = a - 56 by omega]

/-- Settles O29: the padding ends with the current block, so BUF holds it from OFFSET on and V is compressed once. -/
theorem finalCompressesOneBlockUpToOffset55 : Obligations.FinalCompressesOneBlockUpToOffset55 := by
  intro s hf hc ho
  have hfill : s.OFFSET.toNat + (paddingBytes s.OFFSET s.COUNT).length = 64 := by
    rw [paddingBytes_length, zeroCount_eq]
    omega
  obtain ⟨t, ht, ⟨hV, hBUF, -⟩, hfin, hcount, hoff, hport, hrsp⟩ := exec_final_fields hf hc
  rw [← finalize_V, finalize_V_oneBlock hc ho] at hV
  refine ⟨t, ht, hV, by rw [hrsp, hV], hoff, hfin, hcount, hport, fun a ha => ?_, fun a ha hlo => ?_⟩
  · rw [hBUF, absorbAll_read _ _ (by omega), if_neg (by omega)]
  · rw [hBUF, absorbAll_read _ _ (by omega), if_pos (by omega), paddingBytes_getElem?_oneBlock hc ho hlo ha]

/-- 0x80 and zeros up to the end of the block end on the block boundary. -/
theorem absorbAll_spilled_OFFSET (s : State) :
    (absorbAll (0x80#8 :: List.replicate (63 - s.OFFSET.toNat) 0x00#8) s).OFFSET = 0 := by
  have := s.OFFSET.isLt
  apply BitVec.eq_of_toNat_eq
  rw [absorbAll_OFFSET_toNat, List.length_cons, List.length_replicate,
    show s.OFFSET.toNat + (63 - s.OFFSET.toNat + 1) = 64 by omega]
  rfl

/-- 56 zeros and the length are the length block (R187). -/
theorem lengthBlock_getElem? (s : State) {a : Nat} (ha : a < 64) :
    (List.replicate 56 0x00#8 ++ (lengthBytes s.COUNT.toNat).toList)[a]? = some (lengthBlock s)[a] := by
  have hzeros : (List.replicate 56 0x00#8).length = 56 := List.length_replicate
  rw [lengthBlock, Vector.getElem_ofFn]
  by_cases h56 : a < 56
  · rw [if_pos h56, List.getElem?_append_left (by rwa [hzeros]), List.getElem?_replicate_of_lt h56]
    rfl
  · rw [if_neg h56, List.getElem?_append_right (by omega), hzeros]
    simp [show a - 56 < 8 by omega]

/-- Absorbing them at a block boundary leaves that block in BUF. -/
theorem absorbAll_read_length (s : State) {t : State} (ho : t.OFFSET = 0) {a : Nat} (ha : a < 64) :
    Memory.read (absorbAll (List.replicate 56 0x00#8 ++ (lengthBytes s.COUNT.toNat).toList) t).BUF a =
      some (lengthBlock s)[a] := by
  have hzero : t.OFFSET.toNat = 0 := by rw [ho]; rfl
  have hlen : (List.replicate 56 0x00#8 ++ (lengthBytes s.COUNT.toNat).toList).length = 64 := by simp
  rw [absorbAll_read _ _ (by omega), if_pos (by omega), hzero, Nat.sub_zero, lengthBlock_getElem? s ha]

/-- Settles O30: the padding fills the current block and then a whole one, which is what BUF holds at the end. -/
theorem finalCompressesTwoBlocksFromOffset56 : Obligations.FinalCompressesTwoBlocksFromOffset56 := by
  intro s hf hc ho
  obtain ⟨t, ht, ⟨hV, hBUF, -⟩, hfin, hcount, hoff, hport, hrsp⟩ := exec_final_fields hf hc
  rw [← finalize_V, finalize_V_twoBlocks hc ho] at hV
  refine ⟨t, ht, hV, hrsp, hoff, hfin, hcount, hport, fun a ha => ?_, fun a ha => ?_⟩
  · rw [hBUF, absorbAll_read_outside _ _ ha]
  · rw [hBUF, paddingBytes_split hc ho, absorbAll_append, absorbAll_read_length s (absorbAll_spilled_OFFSET s) ha]

end Sys2Proof.Machine

/-!
The obligations on the state invariant and the canonical form of BUF (spec/10_state.md section 1), and on what writes V: each holds
at reset, and `step_writes` leaves only the two resets, an accepted UPDATE and an accepted FINAL to check.
-/

namespace Sys2Proof.Machine

/-! ## The canonical form of BUF -/

/-- BUF is written by absorb only, and unlisted by `rst`. -/
theorem step_keeps_wf {s t : State} (hwf : Memory.wf s.BUF = true) (h : step s = .next t) : Memory.wf t.BUF = true := by
  obtain ⟨-, hBUF, -⟩ | ⟨later, -, rfl⟩ | ⟨w, later, -, -, hw⟩ := step_writes h
  · rwa [hBUF]
  · exact Memory.wf_reset
  · obtain ⟨-, rfl⟩ | ⟨b, -, -, rfl⟩ | ⟨-, -, rfl⟩ := hw
    · exact hwf
    · rw [respond_BUF, absorb_BUF]
      exact Memory.wf_write _ b s.OFFSET.isLt hwf
    · rw [respond_BUF, finalize_BUF]
      exact absorbAll_wf _ hwf

/-- Settles O51: every step keeps the form, and lists that rise alike and read alike are equal. -/
theorem bufferStaysCanonical : Obligations.BufferStaysCanonical :=
  ⟨fun _ _ => step_keeps_wf, fun _ _ => Memory.eq_of_read⟩

/-! ## The state invariant -/

/-- At the start of a message nothing is asked of BUF but its form. -/
theorem AtMessageStart.inv {s : State} (h : AtMessageStart s) (hwf : Memory.wf s.BUF = true) : Inv s where
  canonical := hwf
  accepting _ := by simp [h.offset, h.count]
  finalized _ := h.offset
  filled i hi := by simp [h.offset] at hi
  messageLength hset := by simp [h.accepting] at hset

/-- Settles O49: power-on reset starts a message with nothing in BUF. -/
theorem invariantHoldsAtReset : Obligations.InvariantHoldsAtReset :=
  atMessageStart_reset.inv Memory.wf_reset

/-- The invariant reads neither V nor the ports. -/
theorem Inv.congr {s t : State} (h : Inv s) (hBUF : t.BUF = s.BUF) (hOFFSET : t.OFFSET = s.OFFSET)
    (hCOUNT : t.COUNT = s.COUNT) (hFIN : t.FIN = s.FIN) : Inv t where
  canonical := by rw [hBUF]; exact h.canonical
  accepting hf := by rw [hOFFSET, hCOUNT]; exact h.accepting (hFIN.symm.trans hf)
  finalized hf := hOFFSET.trans (h.finalized (hFIN.symm.trans hf))
  filled i hi := by rw [hBUF]; exact h.filled i (hOFFSET ▸ hi)
  messageLength hf := by rw [hCOUNT]; exact h.messageLength (hFIN.symm.trans hf)

/-- An accepted UPDATE steps OFFSET and COUNT together and writes the byte that OFFSET passes. -/
theorem Inv.update {s : State} (h : Inv s) (hc : updateCheck s = none) (b : Byte) :
    Inv (absorb b { s with COUNT := s.COUNT + 1 }) := by
  obtain ⟨hf, -⟩ := updateCheck_none.1 hc
  have hoff : (absorb b { s with COUNT := s.COUNT + 1 }).OFFSET.toNat = (s.OFFSET.toNat + 1) % 64 := by
    rw [absorb_OFFSET, offset_succ_toNat]
  have hclear : (absorb b { s with COUNT := s.COUNT + 1 }).FIN ≠ true := by simp [hf]
  refine ⟨?_, fun _ => ?_, fun hset => absurd hset hclear, fun i hi => ?_, fun hset => absurd hset hclear⟩
  · rw [absorb_BUF]
    exact Memory.wf_write _ b s.OFFSET.isLt h.canonical
  · rw [hoff, absorb_COUNT, count_succ_toNat hc, h.accepting hf, Nat.mod_add_mod]
  · rw [absorb_BUF, Memory.read_write]
    split
    · rfl
    · next hne => exact h.filled i (by dsimp only at hne; omega)

/-- An accepted FINAL ends at OFFSET 0 with a message below the length limit. -/
theorem Inv.finalize {s : State} (h : Inv s) (hc : finalCheck s = none) : Inv (finalize s) := by
  obtain ⟨-, hlen⟩ := finalCheck_none.1 hc
  refine ⟨?_, fun hclear => ?_, fun _ => finalize_OFFSET s, fun i hi => ?_, fun _ => ?_⟩
  · rw [finalize_BUF]
    exact absorbAll_wf _ h.canonical
  · exact absurd hclear (by simp)
  · simp at hi
  · rwa [finalize_COUNT]

/-- Settles O50: the two resets start a message, and UPDATE and FINAL keep the invariant. -/
theorem invariantIsKeptByEveryStep : Obligations.InvariantIsKeptByEveryStep := by
  intro s t hinv h
  obtain ⟨-, hBUF, hOFFSET, hCOUNT, hFIN⟩ | ⟨later, -, rfl⟩ | ⟨w, later, -, -, hw⟩ := step_writes h
  · exact hinv.congr hBUF hOFFSET hCOUNT hFIN
  · exact invariantHoldsAtReset.congr rfl rfl rfl rfl
  · have hport : Inv { s with port := later } := hinv.congr rfl rfl rfl rfl
    obtain ⟨-, rfl⟩ | ⟨b, -, hc, rfl⟩ | ⟨-, hc, rfl⟩ := hw
    · exact (atMessageStart_respond_reset { s with port := later }).inv hinv.canonical
    · exact (hport.update hc b).congr rfl rfl rfl rfl
    · exact (hport.finalize hc).congr rfl rfl rfl rfl

/-! ## What writes V -/

/-- FINAL compresses one block or two, whatever OFFSET is (R187). -/
theorem finalize_V_one_or_two_blocks {s : State} (hc : s.COUNT.toNat < 2 ^ 61) :
    (finalize s).V = CF s.V (paddedBlock s) ∨ (finalize s).V = CF (CF s.V (spilledBlock s)) (lengthBlock s) := by
  obtain ho | ho : s.OFFSET.toNat ≤ 55 ∨ 56 ≤ s.OFFSET.toNat := by omega
  · exact .inl (finalize_V_oneBlock hc ho)
  · exact .inr (finalize_V_twoBlocks hc ho)

/-- Settles O44: an accepted UPDATE writes V at OFFSET 63 only, an accepted FINAL compresses its one or two blocks. -/
theorem chainingStateIsWrittenOnlyByCompressionAndReset :
    Obligations.ChainingStateIsWrittenOnlyByCompressionAndReset := by
  refine ⟨rfl, fun s t h hV => ?_⟩
  obtain ⟨hsame, -⟩ | ⟨later, hp, rfl⟩ | ⟨w, later, hp, hr, hw⟩ := step_writes h
  · exact absurd hsame hV
  · exact .inl ⟨rfl, .inl ⟨later, hp⟩⟩
  · obtain ⟨hd, rfl⟩ | ⟨b, hd, hc, rfl⟩ | ⟨hd, hc, rfl⟩ := hw
    · exact .inl ⟨rfl, .inr ⟨w, later, hp, hr, hd⟩⟩
    · have hfull : s.OFFSET = 63 := by
        by_contra hne
        exact hV (absorb_V_inside b hne)
      exact .inr ⟨w, later, hp, hr, (updateCheck_none.1 hc).1, .inl ⟨b, hd, hfull, _, absorb_V_boundary b hfull⟩⟩
    · obtain ⟨hf, hlen⟩ := finalCheck_none.1 hc
      exact .inr ⟨w, later, hp, hr, hf, .inr ⟨hd, finalize_V_one_or_two_blocks (s := { s with port := later }) hlen⟩⟩

end Sys2Proof.Machine

/-!
The obligations on the step and the port (spec/30_encoding.md section 1, spec/20_memory.md section 4, spec/70_reset_and_hazards.md
section 2): every step answers, a ready port runs the decoded command, a pending response holds it back, and a host that takes
each response runs its command sequence.
-/

namespace Sys2Proof.Machine

/-! ## Every step answers -/

theorem runWord_next (w : CmdWord) (s : State) : ∃ t, runWord w s = .next t := by
  cases hd : decode w with
  | error e => exact ⟨_, runWord_error hd s⟩
  | ok i =>
    rw [runWord_ok hd]
    exact exec_next i s

/-- Settles O45: no slot of host activity stops the engine, and no word does. -/
theorem everyStepAnswersANextState : Obligations.EveryStepAnswersANextState := by
  intro s
  unfold step
  cases (portActivity s).2 with
  | none => exact ⟨_, rfl⟩
  | some w => exact runWord_next w _

/-! ## The handshake -/

/-- A step with a command's word on a ready port is that command's meaning. -/
theorem step_decoded {s : State} {w : CmdWord} {later : List HostEvent} {i : Instr} (hp : s.port = .command w :: later)
    (hr : s.rsp = none) (hd : decode w = .ok i) : step s = exec i { s with port := later } :=
  (step_command hp hr).trans (runWord_ok hd _)

/-- So is a step with a command's word presented as a number: the number is the word again. -/
theorem step_withFetchWord (s : State) (i : Instr) :
    step (s.withFetchWord 16 (encode i).toNat) = exec i { s with rsp := none } := by
  rw [State.withFetchWord, BitVec.ofNat_toNat, BitVec.setWidth_eq]
  exact step_decoded (presentWord_port _ s) (presentWord_rsp _ s) (decode_eq_ok_iff_eq_encode.2 rfl)

/-- Settles O47: the word presented is the one the step decodes. -/
theorem stepRunsTheDecodedCommand : Obligations.StepRunsTheDecodedCommand :=
  ⟨fun _ _ _ _ => step_decoded, step_withFetchWord⟩

/-- Settles O48, one host event at a time. -/
theorem pendingResponseHoldsBackCommands : Obligations.PendingResponseHoldsBackCommands := by
  refine ⟨fun s w later r hp hr => ⟨?_, step_command_busy hp hr⟩, fun s later hp => ⟨_, step_take hp, rfl, rfl, ?_⟩,
    fun s later hp => ⟨_, step_rst hp, rfl, fun i => Memory.read_nil i⟩, fun s => step_idle⟩
  · rw [State.cmdReady, hr]
    rfl
  · rfl

/-! ## Transactions -/

theorem absorb_port_comm (b : Byte) (p : List HostEvent) (s : State) :
    absorb b { s with port := p } = { absorb b s with port := p } := by
  unfold absorb
  split
  · rfl
  · rfl

theorem absorbAll_port_comm (bs : List Byte) (p : List HostEvent) (s : State) :
    absorbAll bs { s with port := p } = { absorbAll bs s with port := p } := by
  induction bs generalizing s with
  | nil => rfl
  | cons b bs ih => rw [absorbAll_cons, absorbAll_cons, absorb_port_comm, ih]

theorem finalize_port_comm (p : List HostEvent) (s : State) :
    finalize { s with port := p } = { finalize s with port := p } := by
  rw [finalize, absorbAll_port_comm]
  rfl

/-- A command neither reads nor writes what the host does next. -/
theorem exec_port_comm {i : Instr} {s t : State} (h : exec i s = .next t) (p : List HostEvent) :
    exec i { s with port := p } = .next { t with port := p } := by
  cases i with
  | reset | readStatus | readCount =>
    cases h
    rfl
  | update b =>
    cases hc : updateCheck s with
    | none =>
      cases (exec_update_accepted b hc).symm.trans h
      rw [exec_update_accepted (s := { s with port := p }) b hc]
      exact congrArg (Host.Outcome.next ∘ respond .ack) (absorb_port_comm b p { s with COUNT := s.COUNT + 1 })
    | some r =>
      cases (exec_update_rejected b hc).symm.trans h
      exact exec_update_rejected (s := { s with port := p }) b hc
  | final =>
    cases hc : finalCheck s with
    | none =>
      cases (exec_final_accepted hc).symm.trans h
      rw [exec_final_accepted (s := { s with port := p }) hc, finalize_port_comm]
      rfl
    | some r =>
      cases (exec_final_rejected hc).symm.trans h
      exact exec_final_rejected (s := { s with port := p }) hc
  | readDigest =>
    obtain hf | hf := Bool.eq_false_or_eq_true s.FIN
    · cases (exec_readDigest_accepted hf).symm.trans h
      exact exec_readDigest_accepted (s := { s with port := p }) hf
    · cases (exec_readDigest_rejected hf).symm.trans h
      exact exec_readDigest_rejected (s := { s with port := p }) hf

/-- A command sequence does not read the response it starts with; the empty one leaves it there. -/
theorem execAll_rsp_irrelevant {is : List Instr} {s t : State} {q : Option Response}
    (h : execAll is { s with rsp := q } = .next t) :
    ∃ u, execAll is s = .next u ∧ { u with rsp := none } = { t with rsp := none } := by
  cases is with
  | nil =>
    cases h
    exact ⟨s, rfl, rfl⟩
  | cons i is =>
    obtain ⟨v, hv⟩ := exec_next i s
    rw [execAll_cons ((exec_rsp_irrelevant i q s).trans hv)] at h
    exact ⟨t, (execAll_cons hv is).trans h, rfl⟩

theorem run_succ_of_step {M : Host.Core} {s t : M.State} (h : M.step s = .next t) (k : Nat) :
    M.run (k + 1) s = M.run k t := by
  rw [Host.Core.run, h]

theorem core_run_succ {s t : State} (h : step s = .next t) (k : Nat) :
    Sys2Proof.core.run (k + 1) s = Sys2Proof.core.run k t :=
  run_succ_of_step (M := Sys2Proof.core) (s := s) (t := t) h k

/-- Presenting a command's word and taking its response is two steps: the command's meaning, and an empty response port. -/
theorem core_run_transaction {i : Instr} {s t : State} {p : List HostEvent} (hr : s.rsp = none)
    (hp : s.port = .command (encode i) :: .take :: p) (h : exec i { s with port := p } = .next t) (k : Nat) :
    Sys2Proof.core.run (k + 2) s = Sys2Proof.core.run k { t with rsp := none } := by
  have hport : t.port = p := (exec_responds h).2
  have hrun : step s = .next { t with port := .take :: p } :=
    (step_decoded hp hr (decode_eq_ok_iff_eq_encode.2 rfl)).trans (exec_port_comm h (.take :: p))
  have htake : step { t with port := .take :: p } = .next { t with rsp := none } := by
    rw [step_take rfl, ← hport]
  exact (core_run_succ hrun (k + 1)).trans (core_run_succ htake k)

/-- Settles O57, by induction on the commands: a transaction leaves the port as it was and the state one command further on. -/
theorem hostTransactionsRunTheCommandSequence : Obligations.HostTransactionsRunTheCommandSequence := by
  intro is s later hr hp
  induction is generalizing s with
  | nil =>
    have hs : { s with port := later } = s := by rw [← show s.port = later from hp]
    exact ⟨s, by rw [hs, execAll_nil], by rw [← hr]; rfl⟩
  | cons i is ih =>
    obtain ⟨t, ht⟩ := exec_next i { s with port := hostScript is ++ later }
    obtain ⟨u, hu, hrun⟩ := ih { t with rsp := none } rfl (exec_responds ht).2
    obtain ⟨v, hv, huv⟩ := execAll_rsp_irrelevant (s := { t with port := later }) hu
    refine ⟨v, (execAll_cons (exec_port_comm ht later) is).trans hv, ?_⟩
    rw [List.length_cons, Nat.mul_succ, core_run_transaction hr hp ht, hrun, huv]

end Sys2Proof.Machine

/-!
The obligations on what the host cannot tell apart (spec/10_state.md section 1, spec/70_reset_and_hazards.md section 1): two
engines that agree in V, OFFSET, COUNT, FIN and the bytes of BUF below OFFSET answer every command alike and agree after it, because
absorb writes a byte of BUF before OFFSET passes it.
-/

namespace Sys2Proof.Machine

/-! ## Agreement in everything the host can see -/

/-- The two states agree in all that a later response can depend on (R27); their ports may differ. -/
structure SameVisible (s t : State) : Prop where
  V : s.V = t.V
  OFFSET : s.OFFSET = t.OFFSET
  COUNT : s.COUNT = t.COUNT
  FIN : s.FIN = t.FIN
  BUF : ∀ i, i < s.OFFSET.toNat → bufByte s.BUF i = bufByte t.BUF i

/-- With equal ports, this is R27's "differ at most in BUF[OFFSET..63]". -/
theorem sameButUnwritten_iff {s t : State} : SameButUnwritten s t ↔ SameVisible s t ∧ s.rsp = t.rsp ∧ s.port = t.port :=
  ⟨fun h => ⟨⟨h.V, h.OFFSET, h.COUNT, h.FIN, h.BUF⟩, h.rsp, h.port⟩,
    fun ⟨h, hrsp, hport⟩ => ⟨h.V, h.OFFSET, h.COUNT, h.FIN, hrsp, hport, h.BUF⟩⟩

/-- At the start of a message no byte of BUF is visible. -/
theorem AtMessageStart.sameVisible {s t : State} (hs : AtMessageStart s) (ht : AtMessageStart t) : SameVisible s t where
  V := hs.chain.trans ht.chain.symm
  OFFSET := hs.offset.trans ht.offset.symm
  COUNT := hs.count.trans ht.count.symm
  FIN := hs.accepting.trans ht.accepting.symm
  BUF i hi := by simp [hs.offset] at hi

section

variable {s t : State} (h : SameVisible s t)
include h

theorem SameVisible.respond (q r : Response) : SameVisible (respond q s) (respond r t) :=
  ⟨h.V, h.OFFSET, h.COUNT, h.FIN, h.BUF⟩

theorem SameVisible.withCount (c : BitVec 64) : SameVisible { s with COUNT := c } { t with COUNT := c } :=
  ⟨h.V, h.OFFSET, rfl, h.FIN, h.BUF⟩

/-- After the byte at OFFSET is written, all bytes up to and with it agree. -/
theorem SameVisible.bufByte_write (b : Byte) {i : Nat} (hi : i ≤ s.OFFSET.toNat) :
    bufByte (Memory.write s.BUF s.OFFSET.toNat b) i = bufByte (Memory.write t.BUF t.OFFSET.toNat b) i := by
  rw [Machine.bufByte_write, Machine.bufByte_write, ← h.OFFSET]
  split
  · rfl
  · exact h.BUF i (by omega)

/-- At OFFSET 63 the byte written completes the block, so both compress the same one. -/
theorem SameVisible.absorb_V (b : Byte) : (absorb b s).V = (absorb b t).V := by
  rw [Machine.absorb_V, Machine.absorb_V, ← h.OFFSET, ← h.V]
  split
  · next hfull =>
    have h63 : s.OFFSET.toNat = 63 := by rw [hfull]; rfl
    refine congrArg (CF s.V) (Vector.ext fun i hi => ?_)
    rw [memReadBlock_get, memReadBlock_get, h.bufByte_write b (by omega), ← h.OFFSET]
  · rfl

theorem SameVisible.absorb (b : Byte) : SameVisible (absorb b s) (absorb b t) where
  V := h.absorb_V b
  OFFSET := by rw [absorb_OFFSET, absorb_OFFSET, h.OFFSET]
  COUNT := by rw [absorb_COUNT, absorb_COUNT, h.COUNT]
  FIN := by rw [absorb_FIN, absorb_FIN, h.FIN]
  BUF i hi := by
    rw [absorb_OFFSET, offset_succ_toNat] at hi
    rw [absorb_BUF, absorb_BUF, h.bufByte_write b (by omega)]

theorem SameVisible.absorbAll (bs : List Byte) : SameVisible (absorbAll bs s) (absorbAll bs t) := by
  induction bs generalizing s t with
  | nil => exact h
  | cons b bs ih => exact ih (h.absorb b)

/-- The padding is a function of OFFSET and COUNT. -/
theorem SameVisible.finalize : SameVisible (finalize s) (finalize t) := by
  have habs := h.absorbAll (paddingBytes s.OFFSET s.COUNT)
  rw [Machine.finalize, Machine.finalize, ← h.OFFSET, ← h.COUNT]
  exact ⟨habs.V, habs.OFFSET, habs.COUNT, rfl, habs.BUF⟩

/-- Every command answers both alike and leaves them alike. -/
theorem SameVisible.exec (i : Instr) :
    ∃ s' t', exec i s = .next s' ∧ exec i t = .next t' ∧ SameVisible s' t' ∧ s'.rsp = t'.rsp := by
  cases i with
  | reset =>
    exact ⟨_, _, exec_reset s, exec_reset t,
      (atMessageStart_respond_reset s).sameVisible (atMessageStart_respond_reset t), rfl⟩
  | update b =>
    have hcheck : updateCheck s = updateCheck t := by rw [updateCheck, updateCheck, h.FIN, h.COUNT]
    cases hc : updateCheck t with
    | none =>
      have habs : SameVisible (Machine.absorb b { s with COUNT := s.COUNT + 1 })
          (Machine.absorb b { t with COUNT := t.COUNT + 1 }) := by
        rw [h.COUNT]
        exact (h.withCount _).absorb b
      exact ⟨_, _, exec_update_accepted b (hcheck.trans hc), exec_update_accepted b hc, habs.respond _ _, rfl⟩
    | some r => exact ⟨_, _, exec_update_rejected b (hcheck.trans hc), exec_update_rejected b hc, h.respond _ _, rfl⟩
  | final =>
    have hcheck : finalCheck s = finalCheck t := by rw [finalCheck, finalCheck, h.FIN, h.COUNT]
    cases hc : finalCheck t with
    | none =>
      refine ⟨_, _, exec_final_accepted (hcheck.trans hc), exec_final_accepted hc, h.finalize.respond _ _, ?_⟩
      rw [respond_rsp, respond_rsp, h.finalize.V]
    | some r => exact ⟨_, _, exec_final_rejected (hcheck.trans hc), exec_final_rejected hc, h.respond _ _, rfl⟩
  | readDigest =>
    cases hf : t.FIN with
    | true =>
      refine ⟨_, _, exec_readDigest_accepted (h.FIN.trans hf), exec_readDigest_accepted hf, h.respond _ _, ?_⟩
      rw [respond_rsp, respond_rsp, h.V]
    | false =>
      exact ⟨_, _, exec_readDigest_rejected (h.FIN.trans hf), exec_readDigest_rejected hf, h.respond _ _, rfl⟩
  | readStatus =>
    refine ⟨_, _, exec_readStatus s, exec_readStatus t, h.respond _ _, ?_⟩
    rw [respond_rsp, respond_rsp, statusWord, statusWord, h.OFFSET, h.FIN]
  | readCount =>
    refine ⟨_, _, exec_readCount s, exec_readCount t, h.respond _ _, ?_⟩
    rw [respond_rsp, respond_rsp, h.COUNT]

/-- So does every command word. -/
theorem SameVisible.runWord (w : CmdWord) :
    ∃ s' t', runWord w s = .next s' ∧ runWord w t = .next t' ∧ SameVisible s' t' ∧ s'.rsp = t'.rsp ∧
      s'.port = s.port ∧ t'.port = t.port := by
  cases hd : decode w with
  | error e => exact ⟨_, _, runWord_error hd s, runWord_error hd t, h.respond _ _, rfl, rfl, rfl⟩
  | ok i =>
    obtain ⟨s', t', hs, ht, hvis, hrsp⟩ := h.exec i
    exact ⟨s', t', (runWord_ok hd s).trans hs, (runWord_ok hd t).trans ht, hvis, hrsp, (exec_responds hs).2,
      (exec_responds ht).2⟩

/-- A command sequence leaves them alike, its last command with the same response. -/
theorem SameVisible.execAll_append_singleton (is : List Instr) (i : Instr) :
    ∃ s' t', execAll (is ++ [i]) s = .next s' ∧ execAll (is ++ [i]) t = .next t' ∧ SameVisible s' t' ∧ s'.rsp = t'.rsp := by
  induction is generalizing s t with
  | nil =>
    obtain ⟨s', t', hs, ht, hvis⟩ := h.exec i
    exact ⟨s', t', execAll_cons hs [], execAll_cons ht [], hvis⟩
  | cons j js ih =>
    obtain ⟨u, v, hu, hv, huv, -⟩ := h.exec j
    obtain ⟨s', t', hs, ht, hvis⟩ := ih huv
    exact ⟨s', t', (execAll_cons hu _).trans hs, (execAll_cons hv _).trans ht, hvis⟩

end

/-- Settles O23: RESET and power-on reset both start a message. -/
theorem resetIsPowerOnForEveryCommandSequence : Obligations.ResetIsPowerOnForEveryCommandSequence := by
  intro s i is
  have hstart := (atMessageStart_respond_reset s).sameVisible atMessageStart_reset
  obtain ⟨t, u, ht, hu, hvis, hrsp⟩ := hstart.execAll_append_singleton is i
  exact ⟨t, u, (execAll_cons (exec_reset s) _).trans ht, hu, hrsp, hvis.V, hvis.OFFSET, hvis.COUNT, hvis.FIN⟩

/-- Settles O52: equal ports see the same host event, and only an accepted word does more than move the ports or reset. -/
theorem unwrittenBytesAreUnobservable : Obligations.UnwrittenBytesAreUnobservable := by
  intro s t h
  obtain ⟨hvis, hrsp, hport⟩ := sameButUnwritten_iff.1 h
  cases hp : t.port with
  | nil => exact ⟨s, t, step_idle (hport.trans hp), step_idle hp, h⟩
  | cons e later =>
    have hp' : s.port = e :: later := hport.trans hp
    have hlater : SameVisible { s with port := later } { t with port := later } := ⟨h.V, h.OFFSET, h.COUNT, h.FIN, h.BUF⟩
    cases e with
    | rst => exact ⟨_, _, step_rst hp', step_rst hp, rfl, rfl, rfl, rfl, rfl, rfl, fun _ _ => rfl⟩
    | take =>
      exact ⟨_, _, step_take hp', step_take hp, h.V, h.OFFSET, h.COUNT, h.FIN, rfl, rfl, h.BUF⟩
    | command w =>
      cases hr : t.rsp with
      | some r =>
        exact ⟨_, _, step_command_busy hp' (hrsp.trans hr), step_command_busy hp hr,
          sameButUnwritten_iff.2 ⟨hlater, hrsp, rfl⟩⟩
      | none =>
        obtain ⟨s', t', hs, ht, hvis', hrsp', hps, hpt⟩ := hlater.runWord w
        exact ⟨s', t', (step_command hp' (hrsp.trans hr)).trans hs, (step_command hp hr).trans ht,
          sameButUnwritten_iff.2 ⟨hvis', hrsp', hps.trans hpt.symm⟩⟩

end Sys2Proof.Machine
